-- ==== Sys2Proof/Config.lean ====
section
/-! DEFINITION. Config: the parameters of rule R6 of spec/00_scope.md, and the values the spec leaves open as constants with no body. -/

namespace Sys2Proof.Config

/-- `W` (`LIMB_BITS`), the bits in a limb (R6; the limb facts win over the bit-width labels, 90_conflicts.md C1). -/
abbrev limbBits : Nat := 32

/-- `B` of R6, the limb radix `2^W`; named `radix` because `B` is also a register. -/
def radix : Nat := 2 ^ limbBits

/-- `H`, limbs in a half operand: the Karatsuba split point (R6). -/
@[simp] abbrev halfLimbs : Nat := 4

/-- `NA`, limbs in an operand register `A` or `B` (R6). -/
@[simp] abbrev operandLimbs : Nat := 8

/-- `NP`, limbs in the product register `P` (R6). -/
@[simp] abbrev productLimbs : Nat := 16

/-- `NZ1`, limbs in the cross term `z1` and in the window it is added into (R6). -/
@[simp] abbrev crossLimbs : Nat := 12

/-- `M`, the reducer's modulus `B^NA − 1`; never stored in the machine (R6), here for statements. -/
def modulus : Nat := radix ^ operandLimbs - 1

/-- `CANON_ALL_ONES`, whether `RED256` turns an all-ones residue into zero: false (R6, R118). -/
def canonAllOnes : Bool := false

/-- `CMD_BITS`, the bits in a command word (R6, R58). -/
abbrev cmdBits : Nat := 32

/-- Free value: the limb `A[i]` holds after the reset numbered `epoch` (R30, U6).
DESIGN CHOICE, log entry 3; safe: it has no body, so nothing can be proved of it. -/
opaque resetA (epoch i : Nat) : BitVec limbBits

/-- Free value: the limb `B[i]` holds after the reset numbered `epoch` (R30, U6). DESIGN CHOICE, log entry 3; safe. -/
opaque resetB (epoch i : Nat) : BitVec limbBits

/-- Free value: the limb `P[i]` holds after the reset numbered `epoch` (R30, U6). DESIGN CHOICE, log entry 3; safe. -/
opaque resetP (epoch i : Nat) : BitVec limbBits

/-- Free value: the `k`-th unspecified `rdata` word, answered to every command but a legal `RDL` (R57, U7).
DESIGN CHOICE, log entry 4; safe. -/
opaque freeRdata (k : Nat) : BitVec limbBits

end Sys2Proof.Config
end

