-- ==== Sys2Proof/Word.lean ====
section
/-! DEFINITION. Word: the limb, the command word and the register types. -/

namespace Sys2Proof

/-- A limb: an unsigned 32-bit number, the unit of every access (R10, R40). -/
abbrev Limb := BitVec Config.limbBits

/-- A command word (R57, R58). -/
abbrev CmdWord := BitVec Config.cmdBits

/-- `limbs[n]` as a register: exactly `n` limbs, limb 0 least significant (R10, R43). -/
abbrev Limbs (n : Nat) := Vector Limb n

end Sys2Proof
end

