-- ==== Sys2Proof/Syntax.lean ====
section
/-! DEFINITION. Syntax: the nine commands of rule R61, one constructor per row of spec/opcode_table.json. -/

namespace Sys2Proof

/-- The register codes of the limb address space (R40): 0 = `A`, 1 = `B`, 2 = `P`, 3 = `ST` (`STATUS`). -/
inductive Reg where
  | a
  | b
  | p
  | st
deriving DecidableEq, Repr

/-- A command of the core. Operands count limbs (R60); `wdata`, the limb `WRL` writes, is not part of the
command word and comes with the command (R57). -/
inductive Instr where
  /-- `WRL reg, idx` (R130). -/
  | wrl (reg : Reg) (idx : Nat)
  /-- `RDL reg, idx` (R131). -/
  | rdl (reg : Reg) (idx : Nat)
  /-- `ADD n` (R80). -/
  | add (n : Nat)
  /-- `ADDX off, m, n` (R81). -/
  | addx (off m n : Nat)
  /-- `SUB n` (R82). -/
  | sub (n : Nat)
  /-- `MULS4` (R95). -/
  | muls4
  /-- `MULS8` (R96). -/
  | muls8
  /-- `MULK` (R110). -/
  | mulk
  /-- `RED256` (R122). -/
  | red256
deriving DecidableEq, Repr

end Sys2Proof
end

