-- ==== Sys2Proof/WellFormed.lean ====
section
/-! DEFINITION. WellFormed: the legality conditions of rule R61, by command. -/

namespace Sys2Proof

/-- A writable location of the limb address space (R40): `A` and `B` 0 to 7, `P` 0 to 15, never `ST`. -/
def Reg.writableAt : Reg → Nat → Bool
  | .a, idx => idx < Config.operandLimbs
  | .b, idx => idx < Config.operandLimbs
  | .p, idx => idx < Config.productLimbs
  | .st, _ => false

/-- A readable location of the limb address space (R40): the writable ones, and `ST` at index 0. -/
def Reg.readableAt : Reg → Nat → Bool
  | .a, idx => idx < Config.operandLimbs
  | .b, idx => idx < Config.operandLimbs
  | .p, idx => idx < Config.productLimbs
  | .st, idx => idx == 0

/-- The condition of R61 under which the operands make a legal command. -/
def Instr.wellFormed : Instr → Bool
  | .wrl reg idx => reg.writableAt idx
  | .rdl reg idx => reg.readableAt idx
  | .add n => 1 ≤ n && n ≤ Config.operandLimbs
  | .addx off m n => 1 ≤ n && n ≤ Config.operandLimbs && n ≤ m && off + m ≤ Config.productLimbs
  | .sub n => 1 ≤ n && n ≤ Config.operandLimbs
  | .muls4 => true
  | .muls8 => true
  | .mulk => true
  | .red256 => true

end Sys2Proof
end

