-- ==== Sys2Proof/Decode.lean ====
section
/-! DEFINITION. Decode: command words to commands and back (rules R58 to R64 of spec/30_encoding.md). -/

namespace Sys2Proof

/-- Why a word is no command. The spec does not tell the ways of being illegal apart (R144): the names are for
the reader, and the machine raises `IllegalCommand` on each alike. -/
inductive DecodeError where
  /-- `op` is none of the nine opcodes (R62). -/
  | unknownOpcode
  /-- A field that the format of the command requires to be zero is not (R59, R62). -/
  | fieldNotZero
  /-- An operand field fails the legality condition of R61. -/
  | operandOutOfRange
deriving DecidableEq, Repr

/-- The 8-bit field of a command word whose lowest bit is `lo`, as a number (R9, R58, R60). -/
def fieldAt (cmd : CmdWord) (lo : Nat) : Nat := (cmd.extractLsb' lo 8).toNat

/-- `size` of R64: how many indices the register with this code has. -/
def regSize : Nat → Nat
  | 0 => Config.operandLimbs
  | 1 => Config.operandLimbs
  | 2 => Config.productLimbs
  | 3 => 1
  | _ => 0

/-- The register a code names (R40). Codes above 3 name none; the callers reject them first. -/
def regOfCode : Nat → Reg
  | 0 => .a
  | 1 => .b
  | 2 => .p
  | _ => .st

/-- Format L (R59): `f2` is zero, `f1` the register code, `f0` the index; `top` is the highest code allowed. -/
def decodeLimbAddress (top : Nat) (make : Reg → Nat → Instr) (f2 f1 f0 : Nat) : Except DecodeError Instr :=
  if f2 ≠ 0 then .error .fieldNotZero
  else if f1 ≤ top ∧ f0 < regSize f1 then .ok (make (regOfCode f1) f0)
  else .error .operandOutOfRange

/-- Format N (R59): `f2` and `f1` are zero, `f0` the length. -/
def decodeLength (make : Nat → Instr) (f2 f1 f0 : Nat) : Except DecodeError Instr :=
  if f2 ≠ 0 ∨ f1 ≠ 0 then .error .fieldNotZero
  else if 1 ≤ f0 ∧ f0 ≤ Config.operandLimbs then .ok (make f0)
  else .error .operandOutOfRange

/-- Format X (R59): `f2` is `off`, `f1` is `m`, `f0` is `n`; `f2 + f1` does not wrap (R64). -/
def decodeWindow (f2 f1 f0 : Nat) : Except DecodeError Instr :=
  if 1 ≤ f0 ∧ f0 ≤ Config.operandLimbs ∧ f0 ≤ f1 ∧ f2 + f1 ≤ Config.productLimbs then .ok (.addx f2 f1 f0)
  else .error .operandOutOfRange

/-- Format Z (R59): no operand, all three fields zero. -/
def decodeBare (i : Instr) (f2 f1 f0 : Nat) : Except DecodeError Instr :=
  if f2 = 0 ∧ f1 = 0 ∧ f0 = 0 then .ok i
  else .error .fieldNotZero

/-- `decode` of R64 on the four fields of a word. -/
def decodeFields (op f2 f1 f0 : Nat) : Except DecodeError Instr :=
  match op with
  | 0x01 => decodeLimbAddress 2 .wrl f2 f1 f0
  | 0x02 => decodeLimbAddress 3 .rdl f2 f1 f0
  | 0x10 => decodeLength .add f2 f1 f0
  | 0x11 => decodeWindow f2 f1 f0
  | 0x12 => decodeLength .sub f2 f1 f0
  | 0x20 => decodeBare .muls4 f2 f1 f0
  | 0x21 => decodeBare .muls8 f2 f1 f0
  | 0x22 => decodeBare .mulk f2 f1 f0
  | 0x30 => decodeBare .red256 f2 f1 f0
  | _ => .error .unknownOpcode

/-- `decode` of R64: total on 32-bit words, one command or a rejection by name. -/
def decode (cmd : CmdWord) : Except DecodeError Instr :=
  decodeFields (fieldAt cmd 24) (fieldAt cmd 16) (fieldAt cmd 8) (fieldAt cmd 0)

/-- The register code of the limb address space (R40, R61). -/
def regCode : Reg → Nat
  | .a => 0
  | .b => 1
  | .p => 2
  | .st => 3

/-- `cmd = op·2^24 + f2·2^16 + f1·2^8 + f0` (R58). -/
def packFields (op f2 f1 f0 : Nat) : CmdWord :=
  BitVec.ofNat Config.cmdBits (op * 0x1000000 + f2 * 0x10000 + f1 * 0x100 + f0)

/-- `encode` of R64: the command word of a well-formed command. -/
def encode : Instr → CmdWord
  | .wrl reg idx => packFields 0x01 0 (regCode reg) idx
  | .rdl reg idx => packFields 0x02 0 (regCode reg) idx
  | .add n => packFields 0x10 0 0 n
  | .addx off m n => packFields 0x11 off m n
  | .sub n => packFields 0x12 0 0 n
  | .muls4 => packFields 0x20 0 0 0
  | .muls8 => packFields 0x21 0 0 0
  | .mulk => packFields 0x22 0 0 0
  | .red256 => packFields 0x30 0 0 0

/-- The command word whose low `nbits` bits are those of `w` and whose other bits are 0. A command word is presented
whole, as a 32-bit number; the spec gives it no byte layout (R44, R57, R58).
DEDUCED, log entry 2; safe: no other reading gives a word a second meaning. -/
def tableWord (nbits w : Nat) : CmdWord := BitVec.ofNat Config.cmdBits (w % 2 ^ nbits)

/-- What the decoder reads from a table row's word. Every row has 32 bits (R58); a longer word is no command word. -/
def decodeTableWord (nbits w : Nat) : Option Instr :=
  if nbits ≤ Config.cmdBits then
    match decode (tableWord nbits w) with
    | .ok i => some i
    | .error _ => none
  else none

end Sys2Proof
end

