-- ==== Sys2Proof/Machine/State.lean ====
section
/-! DEFINITION. State: the seven items of rule R20 of spec/10_state.md, the words of the transaction interface of rule R57, and State.reset. -/

namespace Sys2Proof.Machine

/-- What the host sends the core (R164): the reset event, or a command word with its write-data word (R57). -/
inductive HostEvent where
  /-- The reset event (R155). -/
  | reset
  /-- One command: the pair `cmd`, `wdata` of R57. -/
  | command (cmd : CmdWord) (wdata : Limb)
deriving DecidableEq, Repr

/-- The reasons a step can fault. There is none, and so none is raised by anyone: no operation can fail (R140),
every word has an effect (R62, R141) and nothing stops the core (R160). Safe: the model never stops short of the spec. -/
inductive Fault where
deriving DecidableEq, Repr

/-- The reasons a step can be refused. -/
inductive Refusal where
  /-- Raised only by an arm of `exec` whose instruction has no meaning yet (none is left). Safe: nothing is claimed there. -/
  | notModelled (mnemonic : String)
deriving DecidableEq, Repr

/-- The state. `A` to `ERR` are the architectural state, "exactly these seven items and nothing else" (R20). `pending`,
`wdata` and `rdata` are the transaction interface of R57: the spec's step takes a command and answers a word, and the
host's `step` takes and answers a state only (DESIGN CHOICE, log entries 1, 4, 5). `fresh` is the model's own
(DESIGN CHOICE, log entry 6; safe). -/
structure State where
  /-- First operand; destination of `ADD` (R20). -/
  A : Limbs Config.operandLimbs
  /-- Second operand (R20). -/
  B : Limbs Config.operandLimbs
  /-- Product; the reducer's buffer; destination of `SUB` and `ADDX` (R20). -/
  P : Limbs Config.productLimbs
  /-- Carry out of the last `ADD` or `ADDX` (R23). -/
  CF : Bool
  /-- Borrow out of the last `SUB` (R23). -/
  BF : Bool
  /-- Borrow seen by the last `MULK` (R23, R24). -/
  KB : Bool
  /-- An illegal command has been issued since reset; sticky (R23, R142). -/
  ERR : Bool
  /-- What the host has issued and the core has not yet accepted, in order of issue (R48, R57). Log entry 1; safe. -/
  pending : List HostEvent
  /-- The write-data word that came with the command being executed (R57). Reset value 0: DESIGN CHOICE, log entry 5;
  unsafe where a statement leans on it. -/
  wdata : Limb
  /-- The read-data word the core answered its last command with (R57). Log entry 4; safe. -/
  rdata : Limb
  /-- How many times free values have been drawn: numbers the next draw. -/
  fresh : Nat
deriving DecidableEq, Repr

/-- The effect of reset on the seven items (R29, R30, R155): flags 0, limbs unspecified, here free values of the
reset numbered `epoch`. -/
def State.resetItems (s : State) (epoch : Nat) : State :=
  { s with
    A := Vector.ofFn fun i => Config.resetA epoch i.val
    B := Vector.ofFn fun i => Config.resetB epoch i.val
    P := Vector.ofFn fun i => Config.resetP epoch i.val
    CF := false
    BF := false
    KB := false
    ERR := false }

/-- The machine right after reset (R29 to R31): flags 0, data limbs free values, nothing issued yet. -/
def State.reset : State :=
  { A := Vector.ofFn fun i => Config.resetA 0 i.val
    B := Vector.ofFn fun i => Config.resetB 0 i.val
    P := Vector.ofFn fun i => Config.resetP 0 i.val
    CF := false
    BF := false
    KB := false
    ERR := false
    pending := []
    wdata := 0
    rdata := Config.freeRdata 0
    fresh := 1 }

end Sys2Proof.Machine
end

