-- ==== Sys2Proof/Machine/Flags.lean ====
section
/-! DEFINITION. Flags: the four flags and the status word (rules R23, R26 of spec/10_state.md). -/

namespace Sys2Proof.Machine

/-- `STATUS = CF + 2·BF + 4·KB + 8·ERR` (R26); bits 31:4 read as 0. -/
def statusWord (s : State) : Limb :=
  BitVec.ofNat Config.limbBits (s.CF.toNat + 2 * s.BF.toNat + 4 * s.KB.toNat + 8 * s.ERR.toNat)

/-- `CF <- c` (R80, R81). -/
def State.setCF (s : State) (c : Bool) : State := { s with CF := c }

/-- `BF <- bw` (R82). -/
def State.setBF (s : State) (bw : Bool) : State := { s with BF := bw }

/-- `KB <- kb` (R110). -/
def State.setKB (s : State) (kb : Bool) : State := { s with KB := kb }

end Sys2Proof.Machine
end

