-- ==== Sys2Proof/Machine/Limbs.lean ====
section
/-! DEFINITION. Limbs: limb vectors as values, their notation (rules R10, R11 of spec/00_scope.md) and the limb-wise adder and subtractor (rules R75 to R78). -/

namespace Sys2Proof.Machine

/-- `val(v)` of R11: the sum of `v[i]·B^i`, limb 0 least significant. -/
def val : List Limb → Nat
  | [] => 0
  | x :: xs => x.toNat + Config.radix * val xs

/-- `limbs_n(x)` of R11: limb `i` is `(x div B^i) mod B`. -/
def limbsOf : Nat → Nat → List Limb
  | 0, _ => []
  | n + 1, x => BitVec.ofNat Config.limbBits x :: limbsOf n (x / Config.radix)

/-- `zeros(n)` (R10). -/
def zeros (n : Nat) : List Limb := List.replicate n 0

/-- `ones(n)`: `n` limbs of `B − 1` (R10). -/
def ones (n : Nat) : List Limb := List.replicate n (BitVec.allOnes Config.limbBits)

/-- A bit as a limb: the retained carry as a limb of its own (R104). -/
def bitLimb (c : Bool) : Limb := BitVec.ofNat Config.limbBits c.toNat

/-- `v[lo..lo+n)` (R10). -/
def slice {N : Nat} (v : Limbs N) (lo n : Nat) : List Limb := (v.toList.drop lo).take n

/-- `v[lo..lo+len(u)) <- u`: replaces exactly those limbs and no others (R10). -/
def setSlice {N : Nat} (v : Limbs N) (lo : Nat) (u : List Limb) : Limbs N :=
  Vector.ofFn fun i => if lo ≤ i.val ∧ i.val < lo + u.length then u.getD (i.val - lo) 0 else v[i]

/-- `t mod B`: the limb that stays at its position (R75, R77, R90). -/
def lowLimb (t : Nat) : Limb := BitVec.ofNat Config.limbBits t

/-- `t div B` as a limb: the carry of the multiply-accumulate word (R90, R91). -/
def highLimb (t : Nat) : Limb := BitVec.ofNat Config.limbBits (t / Config.radix)

/-- `t div B` as a bit, where `t` is a sum of two limbs and a carry: 1 iff `t ≥ B` (R75). -/
def carryOut (t : Nat) : Bool := decide (Config.radix ≤ t)

/-- `addc` of R75: two vectors of one length and a carry-in, limb by limb from limb 0 upward. -/
def addc : List Limb → List Limb → Bool → List Limb × Bool
  | x :: xs, y :: ys, c =>
    let t := x.toNat + y.toNat + c.toNat
    let rest := addc xs ys (carryOut t)
    (lowLimb t :: rest.1, rest.2)
  | _, _, c => ([], c)

/-- `add_assign` of R76: `addc` with carry-in 0. -/
def addAssign (dst src : List Limb) : List Limb × Bool := addc dst src false

/-- The second loop of R77: the carry runs through the limbs beyond the source. -/
def carryThrough : List Limb → Bool → List Limb × Bool
  | [], c => ([], c)
  | d :: ds, c =>
    let t := d.toNat + c.toNat
    let rest := carryThrough ds (carryOut t)
    (lowLimb t :: rest.1, rest.2)

/-- `add_assign_extended` of R77: add `src` into the low end of `dst` (not shorter than `src`) and let the carry run on;
the bit returned is the carry left when `dst` is exhausted. -/
def addAssignExtended (dst src : List Limb) : List Limb × Bool :=
  let low := addc (dst.take src.length) src false
  let high := carryThrough (dst.drop src.length) low.2
  (low.1 ++ high.1, high.2)

/-- The loop of R78 with the borrow as an argument, in the unsigned form that R78 gives. -/
def subWithBorrow : List Limb → List Limb → Bool → List Limb × Bool
  | x :: xs, y :: ys, bw =>
    let rest := subWithBorrow xs ys (decide (x.toNat < y.toNat + bw.toNat))
    (lowLimb (x.toNat + Config.radix - y.toNat - bw.toNat) :: rest.1, rest.2)
  | _, _, bw => ([], bw)

/-- `sub` of R78: two vectors of one length; the bit returned is the borrow out. -/
def subLimbs (a b : List Limb) : List Limb × Bool := subWithBorrow a b false

end Sys2Proof.Machine
end

