-- ==== Sys2Proof/Machine/Ops.lean ====
section
/-! DEFINITION. Ops: the named operations over the registers, the limb address space, the answer word, the one exception and the reset event. -/

namespace Sys2Proof.Machine

/-- `MemRead((r, i), 1)` (R12, R40): the limb at a location, `STATUS` at `(ST, 0)`. Commands read valid locations only. -/
def State.readLimb (s : State) (reg : Reg) (idx : Nat) : Limb :=
  match reg with
  | .a => s.A.toList.getD idx 0
  | .b => s.B.toList.getD idx 0
  | .p => s.P.toList.getD idx 0
  | .st => statusWord s

/-- `MemWrite((r, i), 1, v)` (R12, R40): one limb replaced; `STATUS` is not written by any command (R26). -/
def State.writeLimb (s : State) (reg : Reg) (idx : Nat) (v : Limb) : State :=
  match reg with
  | .a => { s with A := setSlice s.A idx [v] }
  | .b => { s with B := setSlice s.B idx [v] }
  | .p => { s with P := setSlice s.P idx [v] }
  | .st => s

/-- `A[lo..lo+len(u)) <- u` (R12). -/
def State.setA (s : State) (lo : Nat) (u : List Limb) : State := { s with A := setSlice s.A lo u }

/-- `P[lo..lo+len(u)) <- u` (R12). -/
def State.setP (s : State) (lo : Nat) (u : List Limb) : State := { s with P := setSlice s.P lo u }

/-- The core answers `rdata` (R57). -/
def State.answer (s : State) (v : Limb) : State := { s with rdata := v }

/-- The unspecified `rdata` of every command but a legal `RDL`: a fresh free value (R57, U7).
DESIGN CHOICE, log entry 4; safe: nothing can be proved of the word. -/
def State.answerUnspecified (s : State) : State :=
  { s with rdata := Config.freeRdata s.fresh, fresh := s.fresh + 1 }

/-- `raise IllegalCommand`, the core's only exception (R141): `ERR <- 1` and nothing else; `rdata` unspecified. It saves
nothing, changes no mode and transfers control nowhere (R145), so there is no return from it (R146). -/
def State.raiseIllegalCommand (s : State) : State := { s with ERR := true }.answerUnspecified

/-- The reset event (R155): the whole effect on the seven items is that of `State.resetItems`. Limbs after each reset
are new free values. DESIGN CHOICE, log entry 3; safe. The interface words and what else the host has issued stay:
DESIGN CHOICE, log entry 8; safe for the seven items. -/
def State.applyReset (s : State) : State := { s.resetItems s.fresh with fresh := s.fresh + 1 }

/-- The event at the head of what the host has issued, and the state once the core has accepted it (R48, R57). -/
def State.takeEvent (s : State) : Option (HostEvent × State) :=
  match s.pending with
  | [] => none
  | e :: rest => some (e, { s with pending := rest })

/-- The write-data word of the command being executed (R57). -/
def State.latchWdata (s : State) (wdata : Limb) : State := { s with wdata := wdata }

/-- The host issues `cmd` as its next command, ahead of anything pending, with the data word last on the port.
DESIGN CHOICE, log entry 1; safe: no step does this, it stands for the host. -/
def State.issueNext (s : State) (cmd : CmdWord) : State :=
  { s with pending := .command cmd s.wdata :: s.pending }

end Sys2Proof.Machine
end

