-- ==== Sys2Proof/Machine/Operands.lean ====
section
/-! DEFINITION. Operands: the operand forms of rule R59 as limb ranges of the registers, and the legality guard of rule R62. -/

namespace Sys2Proof.Machine

/-- `A[0..n)` (R21). -/
def State.sourceA (s : State) (n : Nat) : List Limb := slice s.A 0 n

/-- `B[0..n)` (R21). -/
def State.sourceB (s : State) (n : Nat) : List Limb := slice s.B 0 n

/-- `P[off..off+m)`, the window of format X (R21, R59). -/
def State.windowP (s : State) (off m : Nat) : List Limb := slice s.P off m

/-- A command with its operand fields in range has the effect `t`; one with an operand out of range is an illegal
command and raises `IllegalCommand` with none of its effect (R61, R62, R141).
DEDUCED, log entry 7; safe: no command word decodes to such a command, so no step reaches it. -/
def whenLegal (i : Instr) (s t : State) : Host.Outcome State Fault Refusal :=
  if i.wellFormed then .next t else .next s.raiseIllegalCommand

end Sys2Proof.Machine
end

