-- ==== Sys2Proof/Machine/HostAccess.lean ====
section
/-! DEFINITION. HostAccess: the meanings of WRL and RDL (rules R130, R131 of spec/44_host_access.md). -/

namespace Sys2Proof.Machine

/-- `WRL reg, idx` (R130): `MemWrite((reg, idx), 1, wdata)`. -/
def execWrl (reg : Reg) (idx : Nat) (s : State) : Host.Outcome State Fault Refusal :=
  whenLegal (.wrl reg idx) s (s.writeLimb reg idx s.wdata).answerUnspecified

/-- `RDL reg, idx` (R131): `rdata = MemRead((reg, idx), 1)`, or `STATUS` for `ST`; no other change. -/
def execRdl (reg : Reg) (idx : Nat) (s : State) : Host.Outcome State Fault Refusal :=
  whenLegal (.rdl reg idx) s (s.answer (s.readLimb reg idx))

end Sys2Proof.Machine
end

