-- ==== Sys2Proof/Machine/Schoolbook.lean ====
section
/-! DEFINITION. Schoolbook: the multiplier of rule R90 of spec/41_schoolbook_multiplier.md and the meanings of MULS4 and MULS8. -/

namespace Sys2Proof.Machine

/-- One row of R90 on the running product from limb `i` upward (`r[i..2n)`): `x` is `a[i]`, the list is what is left of
`b`, `c` the row carry. Past the last limb of `b` the carry is stored into `r[i+n]` (GK1). -/
def mulRow (x : Limb) : List Limb → List Limb → Limb → List Limb
  | [], r, c => c :: r.tail
  | y :: ys, r, c =>
    let t := x.toNat * y.toNat + (r.headD 0).toNat + c.toNat
    lowLimb t :: mulRow x ys r.tail (highLimb t)

/-- The rows of R90 from row `i` on, over `r[i..2n)`: each row leaves its lowest limb final. -/
def mulRows : List Limb → List Limb → List Limb → List Limb
  | [], _, r => r
  | x :: xs, b, r =>
    let r' := mulRow x b r 0
    r'.headD 0 :: mulRows xs b r'.tail

/-- `mul_school(n, a, b)` of R90 for two vectors of one length `n`: `2n` limbs, starting from `zeros(2n)`. -/
def mulSchool (a b : List Limb) : List Limb := mulRows a b (zeros (a.length + b.length))

/-- `MULS4` (R95): `P[0..8) <- mul_school(4, A[0..4), B[0..4))`. -/
def execMuls4 (s : State) : Host.Outcome State Fault Refusal :=
  .next (s.setP 0 (mulSchool (s.sourceA Config.halfLimbs) (s.sourceB Config.halfLimbs))).answerUnspecified

/-- `MULS8` (R96): `P[0..16) <- mul_school(8, A[0..8), B[0..8))`. -/
def execMuls8 (s : State) : Host.Outcome State Fault Refusal :=
  .next (s.setP 0 (mulSchool (s.sourceA Config.operandLimbs) (s.sourceB Config.operandLimbs))).answerUnspecified

end Sys2Proof.Machine
end

