-- ==== Sys2Proof/Machine/Karatsuba.lean ====
section
/-! DEFINITION. Karatsuba: the six steps of spec/42_karatsuba_multiplier.md (rules R100 to R109) and the meaning of MULK. -/

namespace Sys2Proof.Machine

/-- The low half of an operand, `a[0..4)` (R100). -/
def lowHalf (a : List Limb) : List Limb := a.take Config.halfLimbs

/-- The high half of an operand, `a[4..8)` (R100). -/
def highHalf (a : List Limb) : List Limb := a.drop Config.halfLimbs

/-- The half-sum of R103 widened to 8 limbs as R104 does: the retained carry is limb 4. -/
def widenedHalfSum (a : List Limb) : List Limb :=
  let r := addAssign (lowHalf a) (highHalf a)
  r.1 ++ [bitLimb r.2] ++ zeros (Config.operandLimbs - (Config.halfLimbs + 1))

/-- The cross product `x` of R104, 16 limbs. -/
def crossProduct (a b : List Limb) : List Limb := mulSchool (widenedHalfSum a) (widenedHalfSum b)

/-- The low product `z0` (R101). -/
def lowProduct (a b : List Limb) : List Limb := mulSchool (lowHalf a) (lowHalf b)

/-- The high product `z2` (R102). -/
def highProduct (a b : List Limb) : List Limb := mulSchool (highHalf a) (highHalf b)

/-- `(t1, k1)` of R105: `x[0..NZ1)` less `z0`, on `NZ1 = 12` limbs. -/
def crossLessLow (a b : List Limb) : List Limb × Bool :=
  subLimbs ((crossProduct a b).take Config.crossLimbs) (lowProduct a b ++ zeros (Config.crossLimbs - Config.operandLimbs))

/-- `(z1, k2)` of R105: `t1` less `z2`, on 12 limbs. -/
def crossTerm (a b : List Limb) : List Limb × Bool :=
  subLimbs (crossLessLow a b).1 (highProduct a b ++ zeros (Config.crossLimbs - Config.operandLimbs))

/-- `p` after `z1` is added into `p[4..16)` (R107), with the carry `c1`: limbs 4 to 15 of the sum. -/
def withCrossTerm (z0 z1 : List Limb) : List Limb × Bool :=
  let r := addAssignExtended ((z0 ++ zeros Config.operandLimbs).drop Config.halfLimbs) z1
  ((z0 ++ zeros Config.operandLimbs).take Config.halfLimbs ++ r.1, r.2)

/-- `p` after `z2` is added into `p[8..16)` (R107), with the carry `c2`. -/
def withHighProduct (p z2 : List Limb) : List Limb × Bool :=
  let r := addAssignExtended (p.drop Config.operandLimbs) z2
  (p.take Config.operandLimbs ++ r.1, r.2)

/-- `mul_karatsuba(a, b)` of R109: the product, and `kb = k1 | k2`. -/
def mulKaratsuba (a b : List Limb) : List Limb × Bool :=
  let p := (withCrossTerm (lowProduct a b) (crossTerm a b).1).1
  ((withHighProduct p (highProduct a b)).1, (crossLessLow a b).2 || (crossTerm a b).2)

/-- `MULK` (R110): `(p, kb) = mul_karatsuba(A, B)`; `P[0..16) <- p`; `KB <- kb`. -/
def execMulk (s : State) : Host.Outcome State Fault Refusal :=
  let r := mulKaratsuba (s.sourceA Config.operandLimbs) (s.sourceB Config.operandLimbs)
  .next ((s.setP 0 r.1).setKB r.2).answerUnspecified

end Sys2Proof.Machine
end

