-- ==== Sys2Proof/Machine/Primitives.lean ====
section
/-! DEFINITION. Primitives: the meanings of ADD, ADDX and SUB (rules R80 to R82 of spec/40_limb_vector_primitives.md). -/

namespace Sys2Proof.Machine

/-- `ADD n` (R80): `(s, c) = add_assign(n, A[0..n), B[0..n))`; `A[0..n) <- s`; `CF <- c`. -/
def execAdd (n : Nat) (s : State) : Host.Outcome State Fault Refusal :=
  let r := addAssign (s.sourceA n) (s.sourceB n)
  whenLegal (.add n) s ((s.setA 0 r.1).setCF r.2).answerUnspecified

/-- `ADDX off, m, n` (R81): `(d, c) = add_assign_extended(m, n, P[off..off+m), A[0..n))`; `P[off..off+m) <- d`; `CF <- c`. -/
def execAddx (off m n : Nat) (s : State) : Host.Outcome State Fault Refusal :=
  let r := addAssignExtended (s.windowP off m) (s.sourceA n)
  whenLegal (.addx off m n) s ((s.setP off r.1).setCF r.2).answerUnspecified

/-- `SUB n` (R82): `(d, bw) = sub(n, A[0..n), B[0..n))`; `P[0..n) <- d`; `BF <- bw`. -/
def execSub (n : Nat) (s : State) : Host.Outcome State Fault Refusal :=
  let r := subLimbs (s.sourceA n) (s.sourceB n)
  whenLegal (.sub n) s ((s.setP 0 r.1).setBF r.2).answerUnspecified

end Sys2Proof.Machine
end

