-- ==== Sys2Proof/Machine/Reducer.lean ====
section
/-! DEFINITION. Reducer: the reducer modulo 2^256 − 1 of spec/43_modular_reducer.md (rules R115 to R118) and the meaning of RED256. -/

namespace Sys2Proof.Machine

/-- The fold of R115: `(s, c) = add_assign(8, x[0..8), x[8..16))`. -/
def foldHalves (x : List Limb) : List Limb × Bool := addAssign (x.take Config.operandLimbs) (x.drop Config.operandLimbs)

/-- One pass of R116: the 8-limb vector plus 1, with its carry out. -/
def endAroundPass (s : List Limb) : List Limb × Bool := addc s (zeros Config.operandLimbs) true

/-- The loop of R116 as written, stopped after at most `passes` passes: the pair `(s, c)` it has then. For statements;
the meaning uses `endAround`. -/
def endAroundLoop : Nat → List Limb × Bool → List Limb × Bool
  | 0, r => r
  | passes + 1, r => if r.2 then endAroundLoop passes (endAroundPass r.1) else r

/-- The loop of R116, in the form R117 allows: one pass if the fold's carry is 1, none if it is 0. -/
def endAround (r : List Limb × Bool) : List Limb := if r.2 then (endAroundPass r.1).1 else r.1

/-- The third line of R118, under the parameter `CANON_ALL_ONES`. -/
def canonicalize (canon : Bool) (s : List Limb) : List Limb :=
  if canon && s == ones Config.operandLimbs then zeros Config.operandLimbs else s

/-- `reduce256(x)` of R118, upper 8 limbs zeroed. -/
def reduce256 (x : List Limb) : List Limb :=
  canonicalize Config.canonAllOnes (endAround (foldHalves x)) ++ zeros Config.operandLimbs

/-- `RED256` (R122): `P[0..16) <- reduce256(P)`; no flag is written. -/
def execRed256 (s : State) : Host.Outcome State Fault Refusal :=
  .next (s.setP 0 (reduce256 (s.windowP 0 Config.productLimbs))).answerUnspecified

end Sys2Proof.Machine
end

