-- ==== Sys2Proof/Machine/Dispatch.lean ====
section
/-! DEFINITION. Dispatch: one arm per command. -/

namespace Sys2Proof.Machine

def exec (i : Instr) (s : State) : Host.Outcome State Fault Refusal :=
  match i with
  | .wrl reg idx => Sys2Proof.Machine.execWrl reg idx s
  | .rdl reg idx => Sys2Proof.Machine.execRdl reg idx s
  | .add n => Sys2Proof.Machine.execAdd n s
  | .addx off m n => Sys2Proof.Machine.execAddx off m n s
  | .sub n => Sys2Proof.Machine.execSub n s
  | .muls4 => Sys2Proof.Machine.execMuls4 s
  | .muls8 => Sys2Proof.Machine.execMuls8 s
  | .mulk => Sys2Proof.Machine.execMulk s
  | .red256 => Sys2Proof.Machine.execRed256 s

end Sys2Proof.Machine
end

