-- ==== Sys2Proof/Machine/Step.lean ====
section
/-! DEFINITION. Step: the core accepts the next event the host has issued and executes it to completion (rules R48, R57, R164). -/

namespace Sys2Proof.Machine

/-- One step. Nothing pending: idle, all state kept (R164). The reset event: R155. A command: its data word is taken
with it, and the word executes as the command it decodes to, or raises `IllegalCommand` (R57, R62, R64, R141). -/
def step (s : State) : Host.Outcome State Fault Refusal :=
  match s.takeEvent with
  | none => .next s
  | some (.reset, t) => .next t.applyReset
  | some (.command cmd wdata, t) =>
    match decode cmd with
    | .ok i => exec i (t.latchWdata wdata)
    | .error _ => .next (t.latchWdata wdata).raiseIllegalCommand

/-- `s` with the host about to issue this command word next (DESIGN CHOICE,
log entry 1, and DEDUCED, log entry 2; safe). -/
def State.withFetchWord (s : State) (nbits w : Nat) : State := s.issueNext (tableWord nbits w)

end Sys2Proof.Machine
end

