-- ==== Sys2Proof/Laws/Limbs.lean ====
section
/-! SUPPORT. Laws of limb vectors: the value function, and for each primitive of rules R75 to R78 its length and its value. -/

namespace Sys2Proof.Machine

theorem radix_eq : Config.radix = 4294967296 := rfl

theorem two_le_radix : 2 ≤ Config.radix := by decide

theorem radix_pos : 0 < Config.radix := by decide

theorem limb_lt_radix (x : Limb) : x.toNat < Config.radix := x.isLt

theorem lowLimb_toNat (t : Nat) : (lowLimb t).toNat = t % Config.radix := BitVec.toNat_ofNat t _

theorem lowLimb_toNat_self (x : Limb) : lowLimb x.toNat = x := BitVec.ofNat_toNat _ x

theorem highLimb_toNat {t : Nat} (h : t < Config.radix * Config.radix) :
    (highLimb t).toNat = t / Config.radix := by
  have : t / Config.radix < Config.radix := Nat.div_lt_of_lt_mul h
  rw [highLimb, BitVec.toNat_ofNat]
  exact Nat.mod_eq_of_lt this

theorem bitLimb_toNat (c : Bool) : (bitLimb c).toNat = c.toNat := by cases c <;> rfl

/-! ### val -/

@[simp] theorem val_nil : val [] = 0 := rfl

@[simp] theorem val_cons (x : Limb) (xs : List Limb) : val (x :: xs) = x.toNat + Config.radix * val xs := rfl

theorem val_append (xs ys : List Limb) : val (xs ++ ys) = val xs + Config.radix ^ xs.length * val ys := by
  induction xs with
  | nil => simp
  | cons x xs ih => simp [ih, pow_succ]; ring

theorem val_lt (xs : List Limb) : val xs < Config.radix ^ xs.length := by
  induction xs with
  | nil => simp
  | cons x xs ih =>
    have hx := limb_lt_radix x
    have : Config.radix * (val xs + 1) ≤ Config.radix * Config.radix ^ xs.length := Nat.mul_le_mul_left _ ih
    simp only [val_cons, List.length_cons, pow_succ]
    nlinarith

/-- `val` is injective on vectors of one length (R11: a bijection with `[0, B^n)`). -/
theorem val_inj : ∀ {xs ys : List Limb}, xs.length = ys.length → val xs = val ys → xs = ys
  | [], [], _, _ => rfl
  | x :: xs, y :: ys, hl, hv => by
    have hx := limb_lt_radix x
    have hy := limb_lt_radix y
    simp only [val_cons] at hv
    have hmod : x.toNat = y.toNat := by
      have := congrArg (· % Config.radix) hv
      simpa [Nat.add_mul_mod_self_left, Nat.mod_eq_of_lt hx, Nat.mod_eq_of_lt hy] using this
    have htl : val xs = val ys := by
      rw [hmod] at hv
      exact Nat.eq_of_mul_eq_mul_left radix_pos (Nat.add_left_cancel hv)
    rw [BitVec.eq_of_toNat_eq hmod, val_inj (by simpa using hl) htl]

/-- The sum of R11, written out. -/
theorem val_eq_sum (xs : List Limb) :
    val xs = ∑ i ∈ Finset.range xs.length, (xs.getD i 0).toNat * Config.radix ^ i := by
  induction xs with
  | nil => rfl
  | cons x xs ih =>
    rw [val_cons, ih, List.length_cons, Finset.sum_range_succ', Finset.mul_sum, Nat.add_comm]
    congr 1
    · refine Finset.sum_congr rfl fun i _ => ?_
      rw [List.getD_cons_succ, Nat.pow_succ]
      ring
    · rw [List.getD_cons_zero, Nat.pow_zero, Nat.mul_one]

@[simp] theorem limbsOf_length (n x : Nat) : (limbsOf n x).length = n := by
  induction n generalizing x with
  | zero => rfl
  | succ n ih => simp [limbsOf, ih]

/-- `limbs_n` is the inverse of `val` on `[0, B^n)` (R11). -/
theorem val_limbsOf {n x : Nat} (h : x < Config.radix ^ n) : val (limbsOf n x) = x := by
  induction n generalizing x with
  | zero => simp [limbsOf] at *; omega
  | succ n ih =>
    have hd : x / Config.radix < Config.radix ^ n := by
      apply Nat.div_lt_of_lt_mul
      rwa [pow_succ, Nat.mul_comm] at h
    have hx : (BitVec.ofNat Config.limbBits x).toNat = x % Config.radix := BitVec.toNat_ofNat x _
    simp only [limbsOf, val_cons, hx, ih hd, Nat.mod_add_div]

@[simp] theorem zeros_length (n : Nat) : (zeros n).length = n := by simp [zeros]

@[simp] theorem ones_length (n : Nat) : (ones n).length = n := by simp [ones]

theorem zeros_succ (n : Nat) : zeros (n + 1) = 0 :: zeros n := rfl

@[simp] theorem val_zeros (n : Nat) : val (zeros n) = 0 := by
  induction n with
  | zero => rfl
  | succ n ih => simp [zeros_succ, ih]

theorem val_ones (n : Nat) : val (ones n) = Config.radix ^ n - 1 := by
  induction n with
  | zero => rfl
  | succ n ih =>
    have hp : 0 < Config.radix ^ n := pow_pos radix_pos n
    have hl : (BitVec.allOnes Config.limbBits).toNat = Config.radix - 1 := BitVec.toNat_allOnes
    rw [ones, List.replicate_succ, val_cons, ← ones, ih, hl, Nat.mul_sub, pow_succ]
    have : Config.radix ≤ Config.radix * Config.radix ^ n := Nat.le_mul_of_pos_right _ hp
    rw [Nat.mul_comm (Config.radix ^ n)]
    have := radix_pos
    omega

/-! ### Ranges of a register -/

@[simp] theorem slice_length {N : Nat} (v : Limbs N) (lo n : Nat) : (slice v lo n).length = min n (N - lo) := by
  simp [slice]

theorem slice_all {N : Nat} (v : Limbs N) : slice v 0 N = v.toList := by
  simp [slice]

/-- `v[lo..hi) <- u` replaces exactly those limbs and no others (R10). -/
theorem setSlice_getElem {N : Nat} (v : Limbs N) (lo : Nat) (u : List Limb) (i : Nat) (h : i < N) :
    (setSlice v lo u)[i] = if lo ≤ i ∧ i < lo + u.length then u.getD (i - lo) 0 else v[i] := by
  simp [setSlice]

/-- The vector after a range is replaced, as one list. -/
theorem setSlice_toList {N : Nat} (v : Limbs N) (lo : Nat) (u : List Limb) (h : lo + u.length ≤ N) :
    (setSlice v lo u).toList = v.toList.take lo ++ u ++ v.toList.drop (lo + u.length) := by
  have hN : v.toList.length = N := by simp
  apply List.ext_getElem (by simp; omega)
  intro i h1 h2
  have hi : i < N := by simpa using h1
  rw [Vector.getElem_toList, setSlice_getElem v lo u i hi]
  simp only [List.getElem_append, List.length_append, List.length_take, hN, List.getElem_take, List.getElem_drop,
    Vector.getElem_toList]
  by_cases hlo : i < lo
  · rw [if_neg (by omega), dif_pos (by omega), dif_pos (by omega)]
  · by_cases hhi : i < lo + u.length
    · rw [if_pos (by omega), dif_pos (by omega), dif_neg (by omega)]
      simp [List.getD_eq_getElem?_getD, Nat.min_eq_left (show lo ≤ N by omega),
        List.getElem?_eq_getElem (show i - lo < u.length by omega)]
    · rw [if_neg (by omega), dif_neg (by omega)]
      congr 1
      omega

/-- The replaced range reads back. -/
theorem slice_setSlice_same {N : Nat} (v : Limbs N) (lo : Nat) (u : List Limb) (h : lo + u.length ≤ N) :
    slice (setSlice v lo u) lo u.length = u := by
  rw [slice, setSlice_toList v lo u h, List.append_assoc,
    List.drop_left' (by simp; omega), List.take_left' rfl]

/-- A range below the replaced one is unchanged. -/
theorem slice_setSlice_below {N : Nat} (v : Limbs N) (lo : Nat) (u : List Limb) (h : lo + u.length ≤ N) :
    slice (setSlice v lo u) 0 lo = slice v 0 lo := by
  rw [slice, setSlice_toList v lo u h, List.drop_zero, List.append_assoc, List.take_left' (by simp; omega)]
  simp [slice]

/-- The limbs above the replaced range are unchanged. -/
theorem slice_setSlice_above {N : Nat} (v : Limbs N) (lo : Nat) (u : List Limb) (k : Nat)
    (h : lo + u.length ≤ N) :
    slice (setSlice v lo u) (lo + u.length) k = slice v (lo + u.length) k := by
  rw [slice, setSlice_toList v lo u h, List.drop_left' (by simp; omega)]
  rfl

/-! ### addc, add_assign (R75, R76) -/

/-- Carry and low limb of a sum below `2·B` make up the sum. -/
theorem lowLimb_add_carry {t : Nat} (h : t < 2 * Config.radix) :
    (lowLimb t).toNat + Config.radix * (carryOut t).toNat = t := by
  rw [lowLimb_toNat, carryOut]
  by_cases hc : Config.radix ≤ t
  · rw [Nat.mod_eq_sub_mod hc, Nat.mod_eq_of_lt (by omega)]; simp [hc]
  · rw [Nat.mod_eq_of_lt (by omega)]; simp [hc]

theorem addc_length : ∀ {x y : List Limb} (c : Bool), x.length = y.length → (addc x y c).1.length = x.length
  | [], _, _, _ => by simp [addc]
  | _ :: xs, y :: ys, c, h => by simp [addc, addc_length (x := xs) (y := ys) _ (by simpa using h)]

/-- R75: `val(s) + cout·B^n = val(x) + val(y) + cin`. -/
theorem addc_val : ∀ {x y : List Limb} (c : Bool), x.length = y.length →
    val (addc x y c).1 + (addc x y c).2.toNat * Config.radix ^ x.length = val x + val y + c.toNat
  | [], [], c, _ => by simp [addc]
  | x :: xs, y :: ys, c, h => by
    have hx := limb_lt_radix x
    have hy := limb_lt_radix y
    have hc : c.toNat ≤ 1 := Bool.toNat_le c
    have ht := lowLimb_add_carry (t := x.toNat + y.toNat + c.toNat) (by omega)
    have ih := addc_val (x := xs) (y := ys) (carryOut (x.toNat + y.toNat + c.toNat)) (by simpa using h)
    simp only [addc, val_cons, List.length_cons, pow_succ]
    linear_combination ht + Config.radix * ih

/-- The carry of `addc` says whether the sum reached `B^n` (R75). -/
theorem addc_carry {x y : List Limb} (c : Bool) (h : x.length = y.length) :
    (addc x y c).2 = decide (Config.radix ^ x.length ≤ val x + val y + c.toNat) := by
  have hv := addc_val c h
  have hl := val_lt (addc x y c).1
  rw [addc_length c h] at hl
  cases hc : (addc x y c).2
  · rw [hc] at hv; simp at hv; symm; simpa using by omega
  · rw [hc] at hv; simp at hv; symm; simpa using by omega

theorem addAssign_length {dst src : List Limb} (h : dst.length = src.length) :
    (addAssign dst src).1.length = dst.length := addc_length false h

/-- R76: `val(dst') + carry_out·B^n = val(dst) + val(src)`. -/
theorem addAssign_val {dst src : List Limb} (h : dst.length = src.length) :
    val (addAssign dst src).1 + (addAssign dst src).2.toNat * Config.radix ^ dst.length = val dst + val src := by
  simpa [addAssign] using addc_val false h

/-! ### add_assign_extended (R77) -/

@[simp] theorem carryThrough_length (ds : List Limb) (c : Bool) : (carryThrough ds c).1.length = ds.length := by
  induction ds generalizing c with
  | nil => rfl
  | cons d ds ih => simp [carryThrough, ih]

theorem carryThrough_val (ds : List Limb) (c : Bool) :
    val (carryThrough ds c).1 + (carryThrough ds c).2.toNat * Config.radix ^ ds.length = val ds + c.toNat := by
  induction ds generalizing c with
  | nil => simp [carryThrough]
  | cons d ds ih =>
    have hd := limb_lt_radix d
    have hc : c.toNat ≤ 1 := Bool.toNat_le c
    have h2 := two_le_radix
    have ht := lowLimb_add_carry (t := d.toNat + c.toNat) (by omega)
    have ih := ih (carryOut (d.toNat + c.toNat))
    simp only [carryThrough, val_cons, List.length_cons, pow_succ]
    linear_combination ht + Config.radix * ih

theorem addAssignExtended_length {dst src : List Limb} (h : src.length ≤ dst.length) :
    (addAssignExtended dst src).1.length = dst.length := by
  simp [addAssignExtended, addc_length (x := dst.take src.length) (y := src) false (by simp [h]), h]

/-- R77: `val(dst') + carry_out·B^m = val(dst) + val(src)`. -/
theorem addAssignExtended_val {dst src : List Limb} (h : src.length ≤ dst.length) :
    val (addAssignExtended dst src).1 + (addAssignExtended dst src).2.toNat * Config.radix ^ dst.length
      = val dst + val src := by
  have hlen : (dst.take src.length).length = src.length := by simp [h]
  have hlow := addc_val (x := dst.take src.length) (y := src) false hlen
  have hhigh := carryThrough_val (dst.drop src.length) (addc (dst.take src.length) src false).2
  have hsplit := val_append (dst.take src.length) (dst.drop src.length)
  have hpow : Config.radix ^ dst.length = Config.radix ^ src.length * Config.radix ^ (dst.drop src.length).length := by
    rw [← pow_add]; congr 1; simp; omega
  rw [List.take_append_drop] at hsplit
  rw [hlen] at hlow hsplit
  simp only [addAssignExtended, val_append, addc_length (x := dst.take src.length) (y := src) false hlen, hlen, hpow]
  simp only [Bool.toNat_false, Nat.add_zero] at hlow
  linear_combination hlow + Config.radix ^ src.length * hhigh - hsplit

/-! ### sub (R78) -/

theorem subWithBorrow_length : ∀ {a b : List Limb} (bw : Bool), a.length = b.length →
    (subWithBorrow a b bw).1.length = a.length
  | [], _, _, _ => by simp [subWithBorrow]
  | _ :: xs, y :: ys, c, h => by simp [subWithBorrow, subWithBorrow_length (a := xs) (b := ys) _ (by simpa using h)]

theorem subWithBorrow_val : ∀ {a b : List Limb} (bw : Bool), a.length = b.length →
    val (subWithBorrow a b bw).1 + val b + bw.toNat
      = val a + (subWithBorrow a b bw).2.toNat * Config.radix ^ a.length
  | [], [], bw, _ => by simp [subWithBorrow]
  | x :: xs, y :: ys, bw, h => by
    have hx := limb_lt_radix x
    have hy := limb_lt_radix y
    have hb : bw.toNat ≤ 1 := Bool.toNat_le bw
    have hr := two_le_radix
    have ht : (lowLimb (x.toNat + Config.radix - y.toNat - bw.toNat)).toNat + y.toNat + bw.toNat
        = x.toNat + Config.radix * (decide (x.toNat < y.toNat + bw.toNat)).toNat := by
      rw [lowLimb_toNat]
      by_cases hlt : x.toNat < y.toNat + bw.toNat
      · rw [Nat.mod_eq_of_lt (by omega)]; simp [hlt]; omega
      · rw [show x.toNat + Config.radix - y.toNat - bw.toNat = (x.toNat - y.toNat - bw.toNat) + Config.radix by omega,
          Nat.add_mod_right, Nat.mod_eq_of_lt (by omega)]; simp [hlt]; omega
    have ih := subWithBorrow_val (a := xs) (b := ys) (decide (x.toNat < y.toNat + bw.toNat)) (by simpa using h)
    simp only [subWithBorrow, val_cons, List.length_cons, pow_succ]
    linear_combination ht + Config.radix * ih

theorem subLimbs_length {a b : List Limb} (h : a.length = b.length) : (subLimbs a b).1.length = a.length :=
  subWithBorrow_length false h

/-- R78: `val(d) − borrow_out·B^n = val(a) − val(b)`. -/
theorem subLimbs_val {a b : List Limb} (h : a.length = b.length) :
    val (subLimbs a b).1 + val b = val a + (subLimbs a b).2.toNat * Config.radix ^ a.length := by
  simpa [subLimbs] using subWithBorrow_val false h

/-- R78: `borrow_out = 1` iff `val(a) < val(b)`. -/
theorem subLimbs_borrow {a b : List Limb} (h : a.length = b.length) :
    (subLimbs a b).2 = decide (val a < val b) := by
  have hv := subLimbs_val h
  have hl := val_lt (subLimbs a b).1
  rw [subLimbs_length h] at hl
  cases hc : (subLimbs a b).2
  · rw [hc] at hv; simp at hv; symm; simpa using by omega
  · rw [hc] at hv; simp at hv; symm; simpa using by omega

end Sys2Proof.Machine
end

