-- ==== Sys2Proof/Laws/Schoolbook.lean ====
section
/-! SUPPORT. Laws of the schoolbook multiplier: the loop invariant of rule R91 and the exactness of the function (rule R92). -/

namespace Sys2Proof.Machine

/-- The multiply-accumulate word fits in two limbs (R91 (a)). -/
theorem mulAcc_lt (x y r c : Limb) :
    x.toNat * y.toNat + r.toNat + c.toNat < Config.radix * Config.radix := by
  have hx := limb_lt_radix x
  have hy := limb_lt_radix y
  have hr := limb_lt_radix r
  have hc := limb_lt_radix c
  have : x.toNat * y.toNat ≤ (Config.radix - 1) * (Config.radix - 1) := Nat.mul_le_mul (by omega) (by omega)
  have hp := radix_pos
  obtain ⟨k, hk⟩ : ∃ k, Config.radix = k + 1 := ⟨Config.radix - 1, by omega⟩
  rw [hk] at this hr hc ⊢
  simp only [Nat.add_sub_cancel] at this
  nlinarith

/-- Low and high limb of the multiply-accumulate word make it up. -/
theorem lowLimb_add_highLimb {t : Nat} (h : t < Config.radix * Config.radix) :
    (lowLimb t).toNat + Config.radix * (highLimb t).toNat = t := by
  rw [lowLimb_toNat, highLimb_toNat h, Nat.mod_add_div]

theorem mulRow_length (x : Limb) : ∀ {b r : List Limb} (c : Limb), b.length < r.length →
    (mulRow x b r c).length = r.length
  | [], _ :: _, _, _ => by simp [mulRow]
  | _ :: ys, _ :: rs, c, h => by simp [mulRow, mulRow_length x (b := ys) (r := rs) _ (by simpa using h)]

/-- A row changes no limb past `r[i+n]`. -/
theorem mulRow_drop (x : Limb) : ∀ {b r : List Limb} (c : Limb), b.length < r.length →
    (mulRow x b r c).drop (b.length + 1) = r.drop (b.length + 1)
  | [], _ :: _, _, _ => by simp [mulRow]
  | _ :: ys, _ :: rs, c, h => by
    simpa [mulRow] using mulRow_drop x (b := ys) (r := rs) _ (by simpa using h)

/-- A row adds `a[i]·b` and the carry to the running product, where `r[i+n]` is still 0 (R91). -/
theorem mulRow_val (x : Limb) : ∀ {b r : List Limb} (c : Limb), b.length < r.length → r.getD b.length 0 = 0 →
    val (mulRow x b r c) = x.toNat * val b + val r + c.toNat
  | [], r :: rs, c, _, h0 => by
    have : r = 0 := by simpa using h0
    simp [mulRow, this]; ring
  | y :: ys, r :: rs, c, h, h0 => by
    have ht := lowLimb_add_highLimb (mulAcc_lt x y r c)
    have ih := mulRow_val x (b := ys) (r := rs) (highLimb (x.toNat * y.toNat + r.toNat + c.toNat))
      (by simpa using h) (by simpa using h0)
    simp only [mulRow, List.headD_cons, List.tail_cons, val_cons]
    linear_combination ht + Config.radix * ih

theorem mulRows_length : ∀ {a b r : List Limb}, r.length = a.length + b.length →
    (mulRows a b r).length = r.length
  | [], _, _, _ => rfl
  | x :: xs, b, r, h => by
    simp only [List.length_cons] at h
    have hl := mulRow_length x (b := b) (r := r) 0 (by omega)
    have ih := mulRows_length (a := xs) (b := b) (r := (mulRow x b r 0).tail) (by rw [List.length_tail]; omega)
    simp only [mulRows, List.length_cons, ih, List.length_tail]
    omega

/-- When the rows from `i` on are done, what they add is the rest of `a` times `b` (R91 (c)). -/
theorem mulRows_val : ∀ {a b r : List Limb}, r.length = a.length + b.length → r.drop b.length = zeros a.length →
    val (mulRows a b r) = val a * val b + val r
  | [], _, _, _, _ => by simp [mulRows]
  | x :: xs, b, r, h, hz => by
    simp only [List.length_cons] at h
    have hlt : b.length < r.length := by omega
    have hl := mulRow_length x (b := b) (r := r) 0 hlt
    have h0 : r.getD b.length 0 = 0 := by
      have := congrArg (fun l => l.getD 0 0) hz
      simpa [List.getD_eq_getElem?_getD, zeros_succ] using this
    have hv := mulRow_val x (b := b) (r := r) 0 hlt h0
    obtain ⟨l, rs, hrs⟩ : ∃ l rs, mulRow x b r 0 = l :: rs := by
      cases hm : mulRow x b r 0 with
      | nil => rw [hm] at hl; simp at hl; omega
      | cons l rs => exact ⟨l, rs, rfl⟩
    have hd : rs.drop b.length = zeros xs.length := by
      have h1 := mulRow_drop x (b := b) (r := r) 0 hlt
      rw [hrs, List.drop_succ_cons] at h1
      have h2 : r.drop (b.length + 1) = (r.drop b.length).drop 1 := by rw [List.drop_drop]
      rw [h1, h2, hz]
      simp [zeros]
    have ih := mulRows_val (a := xs) (b := b) (r := rs) (by rw [hrs] at hl; simp at hl; omega) hd
    rw [hrs, val_cons] at hv
    simp only [mulRows, hrs, List.headD_cons, List.tail_cons, val_cons, ih]
    have : (0 : Limb).toNat = 0 := rfl
    rw [this] at hv
    linear_combination hv

theorem mulSchool_length (a b : List Limb) : (mulSchool a b).length = a.length + b.length := by
  rw [mulSchool, mulRows_length] <;> simp

/-- R92: the product is exact, with no truncation. -/
theorem mulSchool_val (a b : List Limb) : val (mulSchool a b) = val a * val b := by
  rw [mulSchool, mulRows_val (by simp) (by simp [zeros])]
  simp

end Sys2Proof.Machine
end

