-- ==== Sys2Proof/Laws/Karatsuba.lean ====
section
/-! SUPPORT. Laws of the Karatsuba steps: the lengths of the intermediate vectors of spec/42_karatsuba_multiplier.md, and the value of a widened half-sum. -/

namespace Sys2Proof.Machine

theorem lowHalf_length {a : List Limb} (h : a.length = 8) : (lowHalf a).length = 4 := by simp [lowHalf, h, Config.halfLimbs]

theorem highHalf_length {a : List Limb} (h : a.length = 8) : (highHalf a).length = 4 := by simp [highHalf, h, Config.halfLimbs]

/-- R100: `val(a) = val(a0) + val(a1)·B^4`. -/
theorem halves_val {a : List Limb} (h : a.length = 8) :
    val a = val (lowHalf a) + Config.radix ^ 4 * val (highHalf a) := by
  have := val_append (lowHalf a) (highHalf a)
  rwa [lowHalf_length h, lowHalf, highHalf, List.take_append_drop] at this

theorem widenedHalfSum_length {a : List Limb} (h : a.length = 8) : (widenedHalfSum a).length = 8 := by
  have := addAssign_length (dst := lowHalf a) (src := highHalf a) (by rw [lowHalf_length h, highHalf_length h])
  simp [widenedHalfSum, this, lowHalf_length h]

/-- R103, R104: the widened half-sum has lost no carry. -/
theorem widenedHalfSum_val {a : List Limb} (h : a.length = 8) :
    val (widenedHalfSum a) = val (lowHalf a) + val (highHalf a) := by
  have hl : (lowHalf a).length = (highHalf a).length := by rw [lowHalf_length h, highHalf_length h]
  have hv := addAssign_val hl
  rw [widenedHalfSum, val_append, val_append, List.length_append, addAssign_length hl]
  simp only [val_cons, val_nil, val_zeros, bitLimb_toNat]
  linear_combination hv

theorem crossProduct_length {a b : List Limb} (ha : a.length = 8) (hb : b.length = 8) :
    (crossProduct a b).length = 16 := by
  simp [crossProduct, mulSchool_length, widenedHalfSum_length ha, widenedHalfSum_length hb]

theorem lowProduct_length {a b : List Limb} (ha : a.length = 8) (hb : b.length = 8) :
    (lowProduct a b).length = 8 := by
  simp [lowProduct, mulSchool_length, lowHalf_length ha, lowHalf_length hb]

theorem highProduct_length {a b : List Limb} (ha : a.length = 8) (hb : b.length = 8) :
    (highProduct a b).length = 8 := by
  simp [highProduct, mulSchool_length, highHalf_length ha, highHalf_length hb]

theorem crossLessLow_length {a b : List Limb} (ha : a.length = 8) (hb : b.length = 8) :
    (crossLessLow a b).1.length = 12 := by
  rw [crossLessLow, subLimbs_length] <;> simp [crossProduct_length ha hb, lowProduct_length ha hb, Config.crossLimbs]

theorem crossTerm_length {a b : List Limb} (ha : a.length = 8) (hb : b.length = 8) :
    (crossTerm a b).1.length = 12 := by
  rw [crossTerm, subLimbs_length] <;> simp [crossLessLow_length ha hb, highProduct_length ha hb]

theorem withCrossTerm_length {z0 z1 : List Limb} (h0 : z0.length = 8) (h1 : z1.length = 12) :
    (withCrossTerm z0 z1).1.length = 16 := by
  simp [withCrossTerm, addAssignExtended_length (dst := (z0 ++ zeros 8).drop 4) (src := z1) (by simp [h0, h1]), h0]

theorem withHighProduct_length {p z2 : List Limb} (hp : p.length = 16) (h2 : z2.length = 8) :
    (withHighProduct p z2).1.length = 16 := by
  simp [withHighProduct, addAssignExtended_length (dst := p.drop 8) (src := z2) (by simp [hp, h2]), hp]

theorem mulKaratsuba_length {a b : List Limb} (ha : a.length = 8) (hb : b.length = 8) :
    (mulKaratsuba a b).1.length = 16 :=
  withHighProduct_length (withCrossTerm_length (lowProduct_length ha hb) (crossTerm_length ha hb))
    (highProduct_length ha hb)

end Sys2Proof.Machine
end

