-- ==== Sys2Proof/Laws/State.lean ====
section
/-! SUPPORT. Laws of State: what each update of the state does to each field, one lemma per field per update. -/

namespace Sys2Proof.Machine

variable (s : State)

@[simp] theorem State.setCF_A (c : Bool) : (s.setCF c).A = s.A := rfl
@[simp] theorem State.setCF_B (c : Bool) : (s.setCF c).B = s.B := rfl
@[simp] theorem State.setCF_P (c : Bool) : (s.setCF c).P = s.P := rfl
@[simp] theorem State.setCF_CF (c : Bool) : (s.setCF c).CF = c := rfl
@[simp] theorem State.setCF_BF (c : Bool) : (s.setCF c).BF = s.BF := rfl
@[simp] theorem State.setCF_KB (c : Bool) : (s.setCF c).KB = s.KB := rfl
@[simp] theorem State.setCF_ERR (c : Bool) : (s.setCF c).ERR = s.ERR := rfl
@[simp] theorem State.setCF_pending (c : Bool) : (s.setCF c).pending = s.pending := rfl
@[simp] theorem State.setCF_wdata (c : Bool) : (s.setCF c).wdata = s.wdata := rfl
@[simp] theorem State.setCF_rdata (c : Bool) : (s.setCF c).rdata = s.rdata := rfl
@[simp] theorem State.setCF_fresh (c : Bool) : (s.setCF c).fresh = s.fresh := rfl

@[simp] theorem State.setBF_A (bw : Bool) : (s.setBF bw).A = s.A := rfl
@[simp] theorem State.setBF_B (bw : Bool) : (s.setBF bw).B = s.B := rfl
@[simp] theorem State.setBF_P (bw : Bool) : (s.setBF bw).P = s.P := rfl
@[simp] theorem State.setBF_CF (bw : Bool) : (s.setBF bw).CF = s.CF := rfl
@[simp] theorem State.setBF_BF (bw : Bool) : (s.setBF bw).BF = bw := rfl
@[simp] theorem State.setBF_KB (bw : Bool) : (s.setBF bw).KB = s.KB := rfl
@[simp] theorem State.setBF_ERR (bw : Bool) : (s.setBF bw).ERR = s.ERR := rfl
@[simp] theorem State.setBF_pending (bw : Bool) : (s.setBF bw).pending = s.pending := rfl
@[simp] theorem State.setBF_wdata (bw : Bool) : (s.setBF bw).wdata = s.wdata := rfl
@[simp] theorem State.setBF_rdata (bw : Bool) : (s.setBF bw).rdata = s.rdata := rfl
@[simp] theorem State.setBF_fresh (bw : Bool) : (s.setBF bw).fresh = s.fresh := rfl

@[simp] theorem State.setKB_A (kb : Bool) : (s.setKB kb).A = s.A := rfl
@[simp] theorem State.setKB_B (kb : Bool) : (s.setKB kb).B = s.B := rfl
@[simp] theorem State.setKB_P (kb : Bool) : (s.setKB kb).P = s.P := rfl
@[simp] theorem State.setKB_CF (kb : Bool) : (s.setKB kb).CF = s.CF := rfl
@[simp] theorem State.setKB_BF (kb : Bool) : (s.setKB kb).BF = s.BF := rfl
@[simp] theorem State.setKB_KB (kb : Bool) : (s.setKB kb).KB = kb := rfl
@[simp] theorem State.setKB_ERR (kb : Bool) : (s.setKB kb).ERR = s.ERR := rfl
@[simp] theorem State.setKB_pending (kb : Bool) : (s.setKB kb).pending = s.pending := rfl
@[simp] theorem State.setKB_wdata (kb : Bool) : (s.setKB kb).wdata = s.wdata := rfl
@[simp] theorem State.setKB_rdata (kb : Bool) : (s.setKB kb).rdata = s.rdata := rfl
@[simp] theorem State.setKB_fresh (kb : Bool) : (s.setKB kb).fresh = s.fresh := rfl

@[simp] theorem State.setA_A (lo : Nat) (u : List Limb) : (s.setA lo u).A = setSlice s.A lo u := rfl
@[simp] theorem State.setA_B (lo : Nat) (u : List Limb) : (s.setA lo u).B = s.B := rfl
@[simp] theorem State.setA_P (lo : Nat) (u : List Limb) : (s.setA lo u).P = s.P := rfl
@[simp] theorem State.setA_CF (lo : Nat) (u : List Limb) : (s.setA lo u).CF = s.CF := rfl
@[simp] theorem State.setA_BF (lo : Nat) (u : List Limb) : (s.setA lo u).BF = s.BF := rfl
@[simp] theorem State.setA_KB (lo : Nat) (u : List Limb) : (s.setA lo u).KB = s.KB := rfl
@[simp] theorem State.setA_ERR (lo : Nat) (u : List Limb) : (s.setA lo u).ERR = s.ERR := rfl
@[simp] theorem State.setA_pending (lo : Nat) (u : List Limb) : (s.setA lo u).pending = s.pending := rfl
@[simp] theorem State.setA_wdata (lo : Nat) (u : List Limb) : (s.setA lo u).wdata = s.wdata := rfl
@[simp] theorem State.setA_rdata (lo : Nat) (u : List Limb) : (s.setA lo u).rdata = s.rdata := rfl
@[simp] theorem State.setA_fresh (lo : Nat) (u : List Limb) : (s.setA lo u).fresh = s.fresh := rfl

@[simp] theorem State.setP_A (lo : Nat) (u : List Limb) : (s.setP lo u).A = s.A := rfl
@[simp] theorem State.setP_B (lo : Nat) (u : List Limb) : (s.setP lo u).B = s.B := rfl
@[simp] theorem State.setP_P (lo : Nat) (u : List Limb) : (s.setP lo u).P = setSlice s.P lo u := rfl
@[simp] theorem State.setP_CF (lo : Nat) (u : List Limb) : (s.setP lo u).CF = s.CF := rfl
@[simp] theorem State.setP_BF (lo : Nat) (u : List Limb) : (s.setP lo u).BF = s.BF := rfl
@[simp] theorem State.setP_KB (lo : Nat) (u : List Limb) : (s.setP lo u).KB = s.KB := rfl
@[simp] theorem State.setP_ERR (lo : Nat) (u : List Limb) : (s.setP lo u).ERR = s.ERR := rfl
@[simp] theorem State.setP_pending (lo : Nat) (u : List Limb) : (s.setP lo u).pending = s.pending := rfl
@[simp] theorem State.setP_wdata (lo : Nat) (u : List Limb) : (s.setP lo u).wdata = s.wdata := rfl
@[simp] theorem State.setP_rdata (lo : Nat) (u : List Limb) : (s.setP lo u).rdata = s.rdata := rfl
@[simp] theorem State.setP_fresh (lo : Nat) (u : List Limb) : (s.setP lo u).fresh = s.fresh := rfl

@[simp] theorem State.answer_A (v : Limb) : (s.answer v).A = s.A := rfl
@[simp] theorem State.answer_B (v : Limb) : (s.answer v).B = s.B := rfl
@[simp] theorem State.answer_P (v : Limb) : (s.answer v).P = s.P := rfl
@[simp] theorem State.answer_CF (v : Limb) : (s.answer v).CF = s.CF := rfl
@[simp] theorem State.answer_BF (v : Limb) : (s.answer v).BF = s.BF := rfl
@[simp] theorem State.answer_KB (v : Limb) : (s.answer v).KB = s.KB := rfl
@[simp] theorem State.answer_ERR (v : Limb) : (s.answer v).ERR = s.ERR := rfl
@[simp] theorem State.answer_pending (v : Limb) : (s.answer v).pending = s.pending := rfl
@[simp] theorem State.answer_wdata (v : Limb) : (s.answer v).wdata = s.wdata := rfl
@[simp] theorem State.answer_rdata (v : Limb) : (s.answer v).rdata = v := rfl
@[simp] theorem State.answer_fresh (v : Limb) : (s.answer v).fresh = s.fresh := rfl

@[simp] theorem State.answerUnspecified_A : s.answerUnspecified.A = s.A := rfl
@[simp] theorem State.answerUnspecified_B : s.answerUnspecified.B = s.B := rfl
@[simp] theorem State.answerUnspecified_P : s.answerUnspecified.P = s.P := rfl
@[simp] theorem State.answerUnspecified_CF : s.answerUnspecified.CF = s.CF := rfl
@[simp] theorem State.answerUnspecified_BF : s.answerUnspecified.BF = s.BF := rfl
@[simp] theorem State.answerUnspecified_KB : s.answerUnspecified.KB = s.KB := rfl
@[simp] theorem State.answerUnspecified_ERR : s.answerUnspecified.ERR = s.ERR := rfl
@[simp] theorem State.answerUnspecified_pending : s.answerUnspecified.pending = s.pending := rfl
@[simp] theorem State.answerUnspecified_wdata : s.answerUnspecified.wdata = s.wdata := rfl
@[simp] theorem State.answerUnspecified_rdata : s.answerUnspecified.rdata = Config.freeRdata s.fresh := rfl
@[simp] theorem State.answerUnspecified_fresh : s.answerUnspecified.fresh = s.fresh + 1 := rfl

@[simp] theorem State.raiseIllegalCommand_A : s.raiseIllegalCommand.A = s.A := rfl
@[simp] theorem State.raiseIllegalCommand_B : s.raiseIllegalCommand.B = s.B := rfl
@[simp] theorem State.raiseIllegalCommand_P : s.raiseIllegalCommand.P = s.P := rfl
@[simp] theorem State.raiseIllegalCommand_CF : s.raiseIllegalCommand.CF = s.CF := rfl
@[simp] theorem State.raiseIllegalCommand_BF : s.raiseIllegalCommand.BF = s.BF := rfl
@[simp] theorem State.raiseIllegalCommand_KB : s.raiseIllegalCommand.KB = s.KB := rfl
@[simp] theorem State.raiseIllegalCommand_ERR : s.raiseIllegalCommand.ERR = true := rfl
@[simp] theorem State.raiseIllegalCommand_pending : s.raiseIllegalCommand.pending = s.pending := rfl
@[simp] theorem State.raiseIllegalCommand_wdata : s.raiseIllegalCommand.wdata = s.wdata := rfl
@[simp] theorem State.raiseIllegalCommand_rdata : s.raiseIllegalCommand.rdata = Config.freeRdata s.fresh := rfl
@[simp] theorem State.raiseIllegalCommand_fresh : s.raiseIllegalCommand.fresh = s.fresh + 1 := rfl

@[simp] theorem State.latchWdata_A (wdata : Limb) : (s.latchWdata wdata).A = s.A := rfl
@[simp] theorem State.latchWdata_B (wdata : Limb) : (s.latchWdata wdata).B = s.B := rfl
@[simp] theorem State.latchWdata_P (wdata : Limb) : (s.latchWdata wdata).P = s.P := rfl
@[simp] theorem State.latchWdata_CF (wdata : Limb) : (s.latchWdata wdata).CF = s.CF := rfl
@[simp] theorem State.latchWdata_BF (wdata : Limb) : (s.latchWdata wdata).BF = s.BF := rfl
@[simp] theorem State.latchWdata_KB (wdata : Limb) : (s.latchWdata wdata).KB = s.KB := rfl
@[simp] theorem State.latchWdata_ERR (wdata : Limb) : (s.latchWdata wdata).ERR = s.ERR := rfl
@[simp] theorem State.latchWdata_pending (wdata : Limb) : (s.latchWdata wdata).pending = s.pending := rfl
@[simp] theorem State.latchWdata_wdata (wdata : Limb) : (s.latchWdata wdata).wdata = wdata := rfl
@[simp] theorem State.latchWdata_rdata (wdata : Limb) : (s.latchWdata wdata).rdata = s.rdata := rfl
@[simp] theorem State.latchWdata_fresh (wdata : Limb) : (s.latchWdata wdata).fresh = s.fresh := rfl

@[simp] theorem State.issueNext_A (cmd : CmdWord) : (s.issueNext cmd).A = s.A := rfl
@[simp] theorem State.issueNext_B (cmd : CmdWord) : (s.issueNext cmd).B = s.B := rfl
@[simp] theorem State.issueNext_P (cmd : CmdWord) : (s.issueNext cmd).P = s.P := rfl
@[simp] theorem State.issueNext_CF (cmd : CmdWord) : (s.issueNext cmd).CF = s.CF := rfl
@[simp] theorem State.issueNext_BF (cmd : CmdWord) : (s.issueNext cmd).BF = s.BF := rfl
@[simp] theorem State.issueNext_KB (cmd : CmdWord) : (s.issueNext cmd).KB = s.KB := rfl
@[simp] theorem State.issueNext_ERR (cmd : CmdWord) : (s.issueNext cmd).ERR = s.ERR := rfl
@[simp] theorem State.issueNext_pending (cmd : CmdWord) : (s.issueNext cmd).pending = .command cmd s.wdata :: s.pending := rfl
@[simp] theorem State.issueNext_wdata (cmd : CmdWord) : (s.issueNext cmd).wdata = s.wdata := rfl
@[simp] theorem State.issueNext_rdata (cmd : CmdWord) : (s.issueNext cmd).rdata = s.rdata := rfl
@[simp] theorem State.issueNext_fresh (cmd : CmdWord) : (s.issueNext cmd).fresh = s.fresh := rfl

@[simp] theorem State.applyReset_A : s.applyReset.A = Vector.ofFn fun i => Config.resetA s.fresh i.val := rfl
@[simp] theorem State.applyReset_B : s.applyReset.B = Vector.ofFn fun i => Config.resetB s.fresh i.val := rfl
@[simp] theorem State.applyReset_P : s.applyReset.P = Vector.ofFn fun i => Config.resetP s.fresh i.val := rfl
@[simp] theorem State.applyReset_CF : s.applyReset.CF = false := rfl
@[simp] theorem State.applyReset_BF : s.applyReset.BF = false := rfl
@[simp] theorem State.applyReset_KB : s.applyReset.KB = false := rfl
@[simp] theorem State.applyReset_ERR : s.applyReset.ERR = false := rfl
@[simp] theorem State.applyReset_pending : s.applyReset.pending = s.pending := rfl
@[simp] theorem State.applyReset_wdata : s.applyReset.wdata = s.wdata := rfl
@[simp] theorem State.applyReset_rdata : s.applyReset.rdata = s.rdata := rfl
@[simp] theorem State.applyReset_fresh : s.applyReset.fresh = s.fresh + 1 := rfl

@[simp] theorem State.writeLimb_CF (reg : Reg) (idx : Nat) (v : Limb) : (s.writeLimb reg idx v).CF = s.CF := by
  cases reg <;> rfl
@[simp] theorem State.writeLimb_BF (reg : Reg) (idx : Nat) (v : Limb) : (s.writeLimb reg idx v).BF = s.BF := by
  cases reg <;> rfl
@[simp] theorem State.writeLimb_KB (reg : Reg) (idx : Nat) (v : Limb) : (s.writeLimb reg idx v).KB = s.KB := by
  cases reg <;> rfl
@[simp] theorem State.writeLimb_ERR (reg : Reg) (idx : Nat) (v : Limb) : (s.writeLimb reg idx v).ERR = s.ERR := by
  cases reg <;> rfl
@[simp] theorem State.writeLimb_pending (reg : Reg) (idx : Nat) (v : Limb) : (s.writeLimb reg idx v).pending = s.pending := by
  cases reg <;> rfl
@[simp] theorem State.writeLimb_wdata (reg : Reg) (idx : Nat) (v : Limb) : (s.writeLimb reg idx v).wdata = s.wdata := by
  cases reg <;> rfl
@[simp] theorem State.writeLimb_rdata (reg : Reg) (idx : Nat) (v : Limb) : (s.writeLimb reg idx v).rdata = s.rdata := by
  cases reg <;> rfl
@[simp] theorem State.writeLimb_fresh (reg : Reg) (idx : Nat) (v : Limb) : (s.writeLimb reg idx v).fresh = s.fresh := by
  cases reg <;> rfl
@[simp] theorem State.writeLimb_a_A (idx : Nat) (v : Limb) : (s.writeLimb .a idx v).A = setSlice s.A idx [v] := rfl
@[simp] theorem State.writeLimb_b_A (idx : Nat) (v : Limb) : (s.writeLimb .b idx v).A = s.A := rfl
@[simp] theorem State.writeLimb_p_A (idx : Nat) (v : Limb) : (s.writeLimb .p idx v).A = s.A := rfl
@[simp] theorem State.writeLimb_st_A (idx : Nat) (v : Limb) : (s.writeLimb .st idx v).A = s.A := rfl
@[simp] theorem State.writeLimb_a_B (idx : Nat) (v : Limb) : (s.writeLimb .a idx v).B = s.B := rfl
@[simp] theorem State.writeLimb_b_B (idx : Nat) (v : Limb) : (s.writeLimb .b idx v).B = setSlice s.B idx [v] := rfl
@[simp] theorem State.writeLimb_p_B (idx : Nat) (v : Limb) : (s.writeLimb .p idx v).B = s.B := rfl
@[simp] theorem State.writeLimb_st_B (idx : Nat) (v : Limb) : (s.writeLimb .st idx v).B = s.B := rfl
@[simp] theorem State.writeLimb_a_P (idx : Nat) (v : Limb) : (s.writeLimb .a idx v).P = s.P := rfl
@[simp] theorem State.writeLimb_b_P (idx : Nat) (v : Limb) : (s.writeLimb .b idx v).P = s.P := rfl
@[simp] theorem State.writeLimb_p_P (idx : Nat) (v : Limb) : (s.writeLimb .p idx v).P = setSlice s.P idx [v] := rfl
@[simp] theorem State.writeLimb_st_P (idx : Nat) (v : Limb) : (s.writeLimb .st idx v).P = s.P := rfl

/-- Two states are equal when every field is: how a next state is shown to be the one a statement writes out. -/
theorem State.eq_of_fields {s t : State} (hA : s.A = t.A) (hB : s.B = t.B) (hP : s.P = t.P) (hCF : s.CF = t.CF)
    (hBF : s.BF = t.BF) (hKB : s.KB = t.KB) (hERR : s.ERR = t.ERR) (hpending : s.pending = t.pending)
    (hwdata : s.wdata = t.wdata) (hrdata : s.rdata = t.rdata) (hfresh : s.fresh = t.fresh) : s = t := by
  cases s
  cases t
  simp_all

end Sys2Proof.Machine
end

