-- ==== Sys2Proof/Laws/Operands.lean ====
section
/-! SUPPORT. Laws of the operand forms, of the limb address space and of the dispatch: what each shared operation can do, said once. -/

namespace Sys2Proof.Machine

/-- The operand ranges, written out (R21). -/
theorem State.sourceA_eq (s : State) (n : Nat) : s.sourceA n = slice s.A 0 n := rfl

theorem State.sourceB_eq (s : State) (n : Nat) : s.sourceB n = slice s.B 0 n := rfl

theorem State.windowP_eq (s : State) (off m : Nat) : s.windowP off m = slice s.P off m := rfl

theorem State.sourceA_length (s : State) {n : Nat} (h : n ≤ 8) : (s.sourceA n).length = n := by
  simp [State.sourceA, h]

theorem State.sourceB_length (s : State) {n : Nat} (h : n ≤ 8) : (s.sourceB n).length = n := by
  simp [State.sourceB, h]

theorem State.windowP_length (s : State) {off m : Nat} (h : off + m ≤ 16) : (s.windowP off m).length = m := by
  simp [State.windowP, Config.productLimbs]; omega

/-- A legal command answers the state its effect gives. -/
theorem whenLegal_of_wellFormed {i : Instr} (s t : State) (h : i.wellFormed = true) : whenLegal i s t = .next t := by
  simp [whenLegal, h]

/-- A command with an operand out of range raises `IllegalCommand`. -/
theorem whenLegal_of_not_wellFormed {i : Instr} (s t : State) (h : i.wellFormed = false) :
    whenLegal i s t = .next s.raiseIllegalCommand := by
  simp [whenLegal, h]

/-- The guard answers a next state, one of the two. -/
theorem whenLegal_cases (i : Instr) (s t : State) :
    (i.wellFormed = true ∧ whenLegal i s t = .next t) ∨
      (i.wellFormed = false ∧ whenLegal i s t = .next s.raiseIllegalCommand) := by
  unfold whenLegal
  cases i.wellFormed <;> simp

/-! ### The limb address space -/

theorem readLimb_a (s : State) {idx : Nat} (h : idx < 8) : s.readLimb .a idx = s.A[idx] := by
  simp [State.readLimb, h]

theorem readLimb_b (s : State) {idx : Nat} (h : idx < 8) : s.readLimb .b idx = s.B[idx] := by
  simp [State.readLimb, h]

theorem readLimb_p (s : State) {idx : Nat} (h : idx < 16) : s.readLimb .p idx = s.P[idx] := by
  simp [State.readLimb, h]

theorem readLimb_st (s : State) (idx : Nat) : s.readLimb .st idx = statusWord s := rfl

theorem statusWord_toNat (s : State) :
    (statusWord s).toNat = s.CF.toNat + 2 * s.BF.toNat + 4 * s.KB.toNat + 8 * s.ERR.toNat := by
  have h1 := Bool.toNat_le s.CF
  have h2 := Bool.toNat_le s.BF
  have h3 := Bool.toNat_le s.KB
  have h4 := Bool.toNat_le s.ERR
  rw [statusWord, BitVec.toNat_ofNat]
  apply Nat.mod_eq_of_lt
  simp only [Config.limbBits]
  omega

/-- One limb replaced: that one reads the new value, every other one as before. -/
theorem setSlice_one_getD {N : Nat} (v : Limbs N) (idx : Nat) (x : Limb) (h : idx < N) (j : Nat) :
    (setSlice v idx [x]).toList.getD j 0 = if j = idx then x else v.toList.getD j 0 := by
  by_cases hj : j < N
  · have := setSlice_getElem v idx [x] j hj
    by_cases he : j = idx
    · subst he; simpa [hj] using this
    · simpa [hj, he, show ¬(idx ≤ j ∧ j ≤ idx) by omega] using this
  · simp [hj, show j ≠ idx by omega]

/-! ### The accepted event and the arms of exec -/

theorem takeEvent_nil {s : State} (h : s.pending = []) : s.takeEvent = none := by
  simp [State.takeEvent, h]

theorem takeEvent_cons {s : State} {e : HostEvent} {rest : List HostEvent} (h : s.pending = e :: rest) :
    s.takeEvent = some (e, { s with pending := rest }) := by
  simp [State.takeEvent, h]

/-- The next state of a legal `WRL`. -/
theorem exec_wrl {reg : Reg} {idx : Nat} (s : State) (h : reg.writableAt idx = true) :
    exec (.wrl reg idx) s = .next (s.writeLimb reg idx s.wdata).answerUnspecified :=
  whenLegal_of_wellFormed s _ h

/-- The next state of a legal `RDL`. -/
theorem exec_rdl {reg : Reg} {idx : Nat} (s : State) (h : reg.readableAt idx = true) :
    exec (.rdl reg idx) s = .next (s.answer (s.readLimb reg idx)) :=
  whenLegal_of_wellFormed s _ h

/-- The next state of a legal `ADD`. -/
theorem exec_add {n : Nat} (s : State) (h : 1 ≤ n ∧ n ≤ 8) :
    exec (.add n) s = .next ((s.setA 0 (addAssign (s.sourceA n) (s.sourceB n)).1).setCF
      (addAssign (s.sourceA n) (s.sourceB n)).2).answerUnspecified :=
  whenLegal_of_wellFormed s _ (by simp [Instr.wellFormed, h])

/-- The next state of a legal `ADDX`. -/
theorem exec_addx {off m n : Nat} (s : State) (h : 1 ≤ n ∧ n ≤ 8 ∧ n ≤ m ∧ off + m ≤ 16) :
    exec (.addx off m n) s = .next ((s.setP off (addAssignExtended (s.windowP off m) (s.sourceA n)).1).setCF
      (addAssignExtended (s.windowP off m) (s.sourceA n)).2).answerUnspecified :=
  whenLegal_of_wellFormed s _ (by simp [Instr.wellFormed, h])

/-- The next state of a legal `SUB`. -/
theorem exec_sub {n : Nat} (s : State) (h : 1 ≤ n ∧ n ≤ 8) :
    exec (.sub n) s = .next ((s.setP 0 (subLimbs (s.sourceA n) (s.sourceB n)).1).setBF
      (subLimbs (s.sourceA n) (s.sourceB n)).2).answerUnspecified :=
  whenLegal_of_wellFormed s _ (by simp [Instr.wellFormed, h])

theorem exec_muls4 (s : State) :
    exec .muls4 s = .next (s.setP 0 (mulSchool (s.sourceA 4) (s.sourceB 4))).answerUnspecified := rfl

theorem exec_muls8 (s : State) :
    exec .muls8 s = .next (s.setP 0 (mulSchool (s.sourceA 8) (s.sourceB 8))).answerUnspecified := rfl

theorem exec_mulk (s : State) :
    exec .mulk s = .next ((s.setP 0 (mulKaratsuba (s.sourceA 8) (s.sourceB 8)).1).setKB
      (mulKaratsuba (s.sourceA 8) (s.sourceB 8)).2).answerUnspecified := rfl

theorem exec_red256 (s : State) :
    exec .red256 s = .next (s.setP 0 (reduce256 (s.windowP 0 16))).answerUnspecified := rfl

end Sys2Proof.Machine
end

