-- ==== Sys2Proof/Laws/Decode.lean ====
section
/-! SUPPORT. Laws of the command word: its fields, and the fields of a packed word (rule R58). -/

namespace Sys2Proof

/-- A field is a byte of the word. -/
theorem fieldAt_toNat (cmd : CmdWord) (lo : Nat) : fieldAt cmd lo = cmd.toNat / 2 ^ lo % 256 := by
  rw [fieldAt, BitVec.extractLsb'_toNat, Nat.shiftRight_eq_div_pow]

theorem fieldAt_lt (cmd : CmdWord) (lo : Nat) : fieldAt cmd lo < 256 := by
  rw [fieldAt_toNat]
  exact Nat.mod_lt _ (by decide)

/-- `cmd = op·2^24 + f2·2^16 + f1·2^8 + f0` (R58), as a number. -/
theorem packFields_toNat {op f2 f1 f0 : Nat} (h : op < 256) (h2 : f2 < 256) (h1 : f1 < 256) (h0 : f0 < 256) :
    (packFields op f2 f1 f0).toNat = op * 0x1000000 + f2 * 0x10000 + f1 * 0x100 + f0 := by
  rw [packFields, BitVec.toNat_ofNat]
  apply Nat.mod_eq_of_lt
  show _ < 4294967296
  omega

/-- The four fields of a packed word. -/
theorem fieldAt_packFields {op f2 f1 f0 : Nat} (h : op < 256) (h2 : f2 < 256) (h1 : f1 < 256) (h0 : f0 < 256) :
    fieldAt (packFields op f2 f1 f0) 24 = op ∧ fieldAt (packFields op f2 f1 f0) 16 = f2 ∧
      fieldAt (packFields op f2 f1 f0) 8 = f1 ∧ fieldAt (packFields op f2 f1 f0) 0 = f0 := by
  simp only [fieldAt_toNat, packFields_toNat h h2 h1 h0]
  norm_num
  omega

/-- A word is its four fields packed. -/
theorem packFields_fieldAt (cmd : CmdWord) :
    packFields (fieldAt cmd 24) (fieldAt cmd 16) (fieldAt cmd 8) (fieldAt cmd 0) = cmd := by
  apply BitVec.eq_of_toNat_eq
  rw [packFields_toNat (fieldAt_lt _ _) (fieldAt_lt _ _) (fieldAt_lt _ _) (fieldAt_lt _ _)]
  have h : cmd.toNat < 4294967296 := cmd.isLt
  simp only [fieldAt_toNat]
  norm_num
  omega

end Sys2Proof
end

