-- ==== Sys2Proof/Laws/PerInstr.lean ====
section
/-! SUPPORT. Statements about every instruction as syntax, one lemma per constructor. -/

namespace Sys2Proof.Laws.Encoding

/-- The opcode of R61. -/
def opcode : Instr → Nat
  | .wrl _ _ => 0x01
  | .rdl _ _ => 0x02
  | .add _ => 0x10
  | .addx _ _ _ => 0x11
  | .sub _ => 0x12
  | .muls4 => 0x20
  | .muls8 => 0x21
  | .mulk => 0x22
  | .red256 => 0x30

/-- The word of a well-formed command carries the command's opcode in bits 31:24 (R58, R61). -/
def Statement (i : Instr) : Prop := i.wellFormed = true → fieldAt (encode i) 24 = opcode i

theorem regCode_lt (r : Reg) : regCode r < 4 := by cases r <;> decide

theorem writableAt_lt {r : Reg} {idx : Nat} (h : r.writableAt idx = true) : idx < 16 := by
  cases r <;> simp [Reg.writableAt] at h <;> omega

theorem readableAt_lt {r : Reg} {idx : Nat} (h : r.readableAt idx = true) : idx < 16 := by
  cases r <;> simp [Reg.readableAt] at h <;> omega

theorem wrl (reg : Reg) (idx : Nat) : Statement (.wrl reg idx) := fun h => by
  have h1 := writableAt_lt h
  have h2 := regCode_lt reg
  exact (fieldAt_packFields (by decide) (by decide) (by omega) (by omega)).1

theorem rdl (reg : Reg) (idx : Nat) : Statement (.rdl reg idx) := fun h => by
  have h1 := readableAt_lt h
  have h2 := regCode_lt reg
  exact (fieldAt_packFields (by decide) (by decide) (by omega) (by omega)).1

theorem add (n : Nat) : Statement (.add n) := fun h => by
  simp [Instr.wellFormed] at h
  exact (fieldAt_packFields (by decide) (by decide) (by decide) (by omega)).1

theorem addx (off m n : Nat) : Statement (.addx off m n) := fun h => by
  simp [Instr.wellFormed] at h
  exact (fieldAt_packFields (by decide) (by omega) (by omega) (by omega)).1

theorem sub (n : Nat) : Statement (.sub n) := fun h => by
  simp [Instr.wellFormed] at h
  exact (fieldAt_packFields (by decide) (by decide) (by decide) (by omega)).1

theorem muls4 : Statement .muls4 := fun _ => by decide

theorem muls8 : Statement .muls8 := fun _ => by decide

theorem mulk : Statement .mulk := fun _ => by decide

theorem red256 : Statement .red256 := fun _ => by decide

end Sys2Proof.Laws.Encoding
end

