-- ==== Sys2Proof/Laws/Reducer.lean ====
section
/-! SUPPORT. Laws of the reducer: lengths, and the values of the fold and of one end-around pass (rules R115, R116). -/

namespace Sys2Proof.Machine

theorem foldHalves_length {x : List Limb} (h : x.length = 16) : (foldHalves x).1.length = 8 := by
  rw [foldHalves, addAssign_length] <;> simp [h]

/-- R115: `val(s) + c·B^8 = val(lo) + val(hi)`. -/
theorem foldHalves_val {x : List Limb} (h : x.length = 16) :
    val (foldHalves x).1 + (foldHalves x).2.toNat * Config.radix ^ 8 = val (x.take 8) + val (x.drop 8) := by
  have := addAssign_val (dst := x.take 8) (src := x.drop 8) (by simp [h])
  simpa [foldHalves, h] using this

theorem endAroundPass_length {s : List Limb} (h : s.length = 8) : (endAroundPass s).1.length = 8 := by
  rw [endAroundPass, addc_length] <;> simp [h]

/-- R116: one pass adds 1. -/
theorem endAroundPass_val {s : List Limb} (h : s.length = 8) :
    val (endAroundPass s).1 + (endAroundPass s).2.toNat * Config.radix ^ 8 = val s + 1 := by
  have := addc_val (x := s) (y := zeros 8) true (by simp [h])
  simpa [endAroundPass, h] using this

/-- With no carry left the loop of R116 does nothing more. -/
theorem endAroundLoop_of_no_carry {r : List Limb × Bool} (h : r.2 = false) (passes : Nat) : endAroundLoop passes r = r := by
  cases passes <;> simp [endAroundLoop, h]

theorem endAround_length {r : List Limb × Bool} (h : r.1.length = 8) : (endAround r).length = 8 := by
  unfold endAround; split <;> simp [h, endAroundPass_length]

theorem canonicalize_length {s : List Limb} (c : Bool) (h : s.length = 8) : (canonicalize c s).length = 8 := by
  unfold canonicalize; split <;> simp [h]

/-- This hardware has `CANON_ALL_ONES = false`: the third line of R118 does nothing. -/
theorem canonicalize_config (s : List Limb) : canonicalize Config.canonAllOnes s = s := rfl

theorem reduce256_length {x : List Limb} (h : x.length = 16) : (reduce256 x).length = 16 := by
  simp [reduce256, canonicalize_config, endAround_length (foldHalves_length h)]

end Sys2Proof.Machine
end

