-- ==== Sys2Proof/Safety.lean ====
section
/-! DEFINITION. Safety: the predicates that statements about the core are written in. -/

namespace Sys2Proof.Safety
open Sys2Proof.Machine

/-- The two states agree on the seven items of R20. -/
abbrev SameItems (s t : State) : Prop :=
  s.A = t.A ∧ s.B = t.B ∧ s.P = t.P ∧ s.CF = t.CF ∧ s.BF = t.BF ∧ s.KB = t.KB ∧ s.ERR = t.ERR

/-- No defect of the Karatsuba datapath has been seen: `KB` is 0 (R24). -/
abbrev NoDefect (s : State) : Prop := s.KB = false

/-- The word is a command word: it decodes (R61, R64). -/
def isLegalWord (cmd : CmdWord) : Bool :=
  match decode cmd with
  | .ok _ => true
  | .error _ => false

/-- The event the next step accepts is a reset. -/
def resetNext (s : State) : Bool :=
  match s.pending.head? with
  | some .reset => true
  | _ => false

/-- The event the next step accepts is an illegal word. -/
def illegalNext (s : State) : Bool :=
  match s.pending.head? with
  | some (.command cmd _) => !isLegalWord cmd
  | _ => false

/-- The row of R61's table that a command stands in: the four fields of its word and the legality condition, with the
register codes of R40 written out. For statements only: its numbers are those printed in the table, not `Config`'s, so
that a statement holds the decoder's constants against the table. -/
def TableRow (i : Instr) (op f2 f1 f0 : Nat) : Prop :=
  match i with
  | .wrl reg idx => op = 0x01 ∧ f2 = 0 ∧ f0 = idx ∧
      (reg = .a ∧ f1 = 0 ∧ idx ≤ 7 ∨ reg = .b ∧ f1 = 1 ∧ idx ≤ 7 ∨ reg = .p ∧ f1 = 2 ∧ idx ≤ 15)
  | .rdl reg idx => op = 0x02 ∧ f2 = 0 ∧ f0 = idx ∧
      (reg = .a ∧ f1 = 0 ∧ idx ≤ 7 ∨ reg = .b ∧ f1 = 1 ∧ idx ≤ 7 ∨ reg = .p ∧ f1 = 2 ∧ idx ≤ 15 ∨
        reg = .st ∧ f1 = 3 ∧ idx = 0)
  | .add n => op = 0x10 ∧ f2 = 0 ∧ f1 = 0 ∧ f0 = n ∧ 1 ≤ n ∧ n ≤ 8
  | .addx off m n => op = 0x11 ∧ f2 = off ∧ f1 = m ∧ f0 = n ∧ 1 ≤ n ∧ n ≤ 8 ∧ n ≤ m ∧ off + m ≤ 16
  | .sub n => op = 0x12 ∧ f2 = 0 ∧ f1 = 0 ∧ f0 = n ∧ 1 ≤ n ∧ n ≤ 8
  | .muls4 => op = 0x20 ∧ f2 = 0 ∧ f1 = 0 ∧ f0 = 0
  | .muls8 => op = 0x21 ∧ f2 = 0 ∧ f1 = 0 ∧ f0 = 0
  | .mulk => op = 0x22 ∧ f2 = 0 ∧ f1 = 0 ∧ f0 = 0
  | .red256 => op = 0x30 ∧ f2 = 0 ∧ f1 = 0 ∧ f0 = 0

/-- No reset is among the events the host has issued. -/
abbrev OnlyCommands (s : State) : Prop := HostEvent.reset ∉ s.pending

/-- Every event the host has issued is a reset or a legal command. -/
def AllLegal (s : State) : Prop := ∀ cmd wdata, HostEvent.command cmd wdata ∈ s.pending → isLegalWord cmd = true

end Sys2Proof.Safety
end

