-- ==== Sys2Proof/Certificates/Slice0/Obligations.lean ====
section
/-! DEFINITION. Obligations: the statements about the core, each from the rules of spec/ that its docstring names. -/

open Sys2Proof Sys2Proof.Machine Sys2Proof.Safety

/-! ### Encoding -/

/-- R64: decode (encode c) = c for every legal command c, every operand at every value the encoding admits. -/
def Obligations.EncodeThenDecode : Prop :=
  ∀ i : Instr, i.wellFormed = true → decode (encode i) = .ok i

/-- R64: encode (decode w) = w for every legal word w, and what a word decodes to is a legal command. -/
def Obligations.DecodeThenEncode : Prop :=
  ∀ (cmd : CmdWord) (i : Instr), decode cmd = .ok i → i.wellFormed = true ∧ encode i = cmd

/-- R61: a word is a command exactly by its row of the table, `op`, fields and legality condition. -/
def Obligations.WordIsCommandByItsTableRow : Prop :=
  ∀ (cmd : CmdWord) (i : Instr),
    decode cmd = .ok i ↔ TableRow i (fieldAt cmd 24) (fieldAt cmd 16) (fieldAt cmd 8) (fieldAt cmd 0)

/-- Words of spec/96 (V-DEC-2, 5, 8, 13, 10, 17 to 20 and V-ILL-1, 8, 16, 19, 22), written out from the encoding. -/
def Obligations.SampleWordsDecode : Prop :=
  decode 0x01000007 = .ok (.wrl .a 7) ∧ decode 0x02000300 = .ok (.rdl .st 0) ∧
  decode 0x10000008 = .ok (.add 8) ∧ decode 0x11001008 = .ok (.addx 0 16 8) ∧
  decode 0x12000008 = .ok (.sub 8) ∧ decode 0x20000000 = .ok .muls4 ∧
  decode 0x21000000 = .ok .muls8 ∧ decode 0x22000000 = .ok .mulk ∧ decode 0x30000000 = .ok .red256 ∧
  isLegalWord 0x00000000 = false ∧ isLegalWord 0x10000009 = false ∧ isLegalWord 0x110D0404 = false ∧
  isLegalWord 0x11FF0101 = false ∧ isLegalWord 0x01000300 = false

/-- spec/96, "Count of legal words": 781 of the 2^32 words are legal. -/
def Obligations.LegalWordsNumber781 : Prop :=
  ∃ words : List CmdWord, words.Nodup ∧ words.length = 781 ∧ ∀ cmd, isLegalWord cmd = true ↔ cmd ∈ words

/-! ### The step, the host and reset -/

/-- R57: a command the host has issued is executed as what its word decodes to; around `exec` the step takes the
command from what is pending and its data word onto the port. -/
def Obligations.StepRunsDecodedCommand : Prop :=
  ∀ (s : State) (cmd : CmdWord) (wdata : Limb) (rest : List HostEvent) (i : Instr),
    s.pending = .command cmd wdata :: rest → decode cmd = .ok i →
    step s = exec i { s with pending := rest, wdata := wdata }

/-- The model's placing of a word (log entry 1): the next step runs exactly that command, from the state as it was. -/
def Obligations.IssuedCommandRunsNext : Prop :=
  ∀ (s : State) (i : Instr), i.wellFormed = true →
    step (s.withFetchWord 32 (encode i).toNat) = exec i s

/-- R62, R141: a word that no legal command has sets `ERR` and changes nothing else; its `rdata` is unspecified (`fresh`,
the model's own counter of free values, goes with it). The words R62 names are among them. -/
def Obligations.IllegalWordOnlySetsErr : Prop :=
  (∀ (s : State) (cmd : CmdWord) (wdata : Limb) (rest : List HostEvent),
    s.pending = .command cmd wdata :: rest → (∀ i : Instr, i.wellFormed = true → encode i ≠ cmd) →
    ∃ t, step s = .next t ∧
      t = { s with pending := rest, wdata := wdata, ERR := true, rdata := t.rdata, fresh := t.fresh }) ∧
  ∀ (cmd : CmdWord),
    cmd ∈ [0x00000000, 0xFFFFFFFF, 0x10000000, 0x10000009, 0x12000000, 0x11000400, 0x11001009, 0x11000304, 0x110D0404,
      0x01000008, 0x01000300, 0x02000301, 0x02000210, 0x01000400, 0x0200FF00] ∨
      fieldAt cmd 24 ∉ [0x01, 0x02, 0x10, 0x11, 0x12, 0x20, 0x21, 0x22, 0x30] ∨
      fieldAt cmd 24 ∈ [0x01, 0x02] ∧ (fieldAt cmd 16 ≠ 0 ∨ fieldAt cmd 8 > 3) ∨
      fieldAt cmd 24 ∈ [0x10, 0x12] ∧ (fieldAt cmd 16 ≠ 0 ∨ fieldAt cmd 8 ≠ 0) ∨
      fieldAt cmd 24 ∈ [0x20, 0x21, 0x22, 0x30] ∧ (fieldAt cmd 16 ≠ 0 ∨ fieldAt cmd 8 ≠ 0 ∨ fieldAt cmd 0 ≠ 0) →
    ∀ i : Instr, i.wellFormed = true → encode i ≠ cmd

/-- R164: with nothing issued the core is idle and keeps all state. -/
def Obligations.IdleKeepsAllState : Prop :=
  ∀ s : State, s.pending = [] → step s = .next s

/-- R155: the whole effect of the reset event. That the unspecified limbs are fresh free values, and that the interface
words and what else is issued stay, are the model's choices (log entries 3 and 8). -/
def Obligations.ResetEventEffect : Prop :=
  ∀ (s : State) (rest : List HostEvent), s.pending = .reset :: rest →
    step s = .next { s with
      A := Vector.ofFn fun i => Config.resetA s.fresh i.val
      B := Vector.ofFn fun i => Config.resetB s.fresh i.val
      P := Vector.ofFn fun i => Config.resetP s.fresh i.val
      CF := false
      BF := false
      KB := false
      ERR := false
      pending := rest
      fresh := s.fresh + 1 }

/-- R29: after reset the four flags are 0 and `STATUS` reads 0; at power-on and after every reset event. -/
def Obligations.ResetClearsFlags : Prop :=
  (State.reset.CF = false ∧ State.reset.BF = false ∧ State.reset.KB = false ∧ State.reset.ERR = false ∧
    ∃ t, exec (.rdl .st 0) State.reset = .next t ∧ t.rdata = 0) ∧
  ∀ s : State, resetNext s = true → ∃ t u, step s = .next t ∧
    t.CF = false ∧ t.BF = false ∧ t.KB = false ∧ t.ERR = false ∧ exec (.rdl .st 0) t = .next u ∧ u.rdata = 0

/-- R160, R140: no step stops; every event and every command word has a next state. -/
def Obligations.NoStepStops : Prop :=
  ∀ s : State, ∃ t, step s = .next t

/-- R140: no legal command raises, traps or fails on any state. -/
def Obligations.NoLegalCommandFails : Prop :=
  ∀ (i : Instr) (s : State), i.wellFormed = true → ∃ t, exec i s = .next t ∧ t.ERR = s.ERR

/-- A step takes exactly one event from the list of what the host has issued (the model's choice, log entry 1) and
leaves the rest as issued. For a command that is R48 and R50: no command changes a later one. For a reset event it is
the model's choice (log entry 8). -/
def Obligations.StepTakesOneEvent : Prop :=
  ∀ s t : State, step s = .next t → t.pending = s.pending.tail

/-- The state after a sequence of events is the left fold of one function of the event and the state over the sequence.
R48 says so of commands. That the events stand in a list (log entry 1), and that a reset event is folded like a command
because it leaves what else is issued (log entry 8), are the model's choices. -/
def Obligations.RunIsFoldOfEvents : Prop :=
  ∃ f : HostEvent → State → State, ∀ s : State,
    core.run s.pending.length s =
      .next (List.foldl (α := State) (fun t e => f e t) { s with pending := [] } s.pending)

/-- R28: equal items and equal commands end in equal items, and each legal `RDL` answers the same word. -/
def Obligations.SameItemsSameCommandsSameEnd : Prop :=
  ∀ (k : Nat) (s s' : State), SameItems s s' → s.pending = s'.pending → OnlyCommands s →
    ∃ t t', core.run k s = .next t ∧ core.run k s' = .next t' ∧ SameItems t t' ∧ t.pending = t'.pending ∧
      ∀ cmd wdata rest reg idx, t.pending = .command cmd wdata :: rest → decode cmd = .ok (.rdl reg idx) →
        ∃ u u', step t = .next u ∧ step t' = .next u' ∧ u.rdata = u'.rdata

/-! ### ERR, KB and the other flags over all commands -/

/-- The model's reading of a command built with an operand out of range (log entry 7): it raises `IllegalCommand`, as
the word with those fields does. -/
def Obligations.OperandOutOfRangeRaises : Prop :=
  ∀ (i : Instr) (s : State), i.wellFormed = false →
    exec i s = .next { s with ERR := true, rdata := Config.freeRdata s.fresh, fresh := s.fresh + 1 }

/-- R141, R142, R155: over one step, `ERR` is cleared by reset only, set by an illegal word only, and else kept. -/
def Obligations.ErrWrittenByIllegalWordAndResetOnly : Prop :=
  ∀ s t : State, step s = .next t →
    t.ERR = if resetNext s = true then false else if illegalNext s = true then true else s.ERR

/-- From R142: `ERR` stays 1 until reset; commands execute the same whatever `ERR` holds (all items but `ERR`, and the
answer but for a read of `STATUS`); and from `ERR = 0` every sequence of legal words ends with `ERR = 0`. That a command
other than `RDL`, whose `rdata` R57 leaves unspecified, answers the same word is the model's choice (log entry 4: the
free value is numbered by `fresh`); that the last clause lets reset events stand among the words rests on log entries 1
and 8. -/
def Obligations.ErrIsStickyAndStopsNothing : Prop :=
  (∀ s t : State, s.ERR = true → resetNext s = false → step s = .next t → t.ERR = true) ∧
  (∀ (i : Instr) (s : State) (e : Bool), i.wellFormed = true → ∃ t t',
    exec i s = .next t ∧ exec i { s with ERR := e } = .next t' ∧ t'.ERR = e ∧
      t'.A = t.A ∧ t'.B = t.B ∧ t'.P = t.P ∧ t'.CF = t.CF ∧ t'.BF = t.BF ∧ t'.KB = t.KB ∧
      (i ≠ .rdl .st 0 → t'.rdata = t.rdata)) ∧
  ∀ (k : Nat) (s : State), s.ERR = false → AllLegal s → ∃ t, core.run k s = .next t ∧ t.ERR = false

/-- R21, R23: each flag is written only by the commands the tables name, and no legal command writes `ERR`. -/
def Obligations.FlagsWrittenByNamedCommandsOnly : Prop :=
  ∀ (i : Instr) (s t : State), i.wellFormed = true → exec i s = .next t →
    (t.CF = s.CF ∨ (∃ n, i = .add n) ∨ ∃ off m n, i = .addx off m n) ∧
    (t.BF = s.BF ∨ ∃ n, i = .sub n) ∧ (t.KB = s.KB ∨ i = .mulk) ∧ t.ERR = s.ERR

/-- R157, R21: only `ADD` and `WRL` change `A`, only `WRL` changes `B`; `RDL` and `ADD` leave `P`. That this holds of a
command with an operand out of range too is the model's reading (log entry 7). -/
def Obligations.OperandsPersist : Prop :=
  ∀ (i : Instr) (s t : State), exec i s = .next t →
    (t.A = s.A ∨ (∃ n, i = .add n) ∨ ∃ idx, i = .wrl .a idx) ∧
    (t.B = s.B ∨ ∃ idx, i = .wrl .b idx) ∧
    ((∃ n, i = .add n) ∨ (∃ reg idx, i = .rdl reg idx) → t.P = s.P)

/-- R57, U10: `wdata` is ignored by every command but `WRL`. That the unspecified `rdata` is the same word too is the
model's choice of free value (log entry 4). -/
def Obligations.WdataMattersToWrlOnly : Prop :=
  ∀ (i : Instr) (s : State) (x : Limb), (∀ reg idx, i ≠ .wrl reg idx) →
    ∃ t, exec i s = .next t ∧ exec i { s with wdata := x } = .next { t with wdata := x }

/-- R24, R106: `KB = 0` is kept by every step, whatever the host issues. -/
def Obligations.StepKeepsKbClear : Prop :=
  ∀ s t : State, NoDefect s → step s = .next t → NoDefect t

/-- R29: the invariant holds at reset. -/
def Obligations.ResetHasKbClear : Prop := NoDefect State.reset

/-- R24: `KB` is 0 after every `MULK`, whatever it held before. -/
def Obligations.MulkLeavesKbClear : Prop :=
  ∀ s : State, ∃ t, exec .mulk s = .next t ∧ t.KB = false

/-! ### WRL, RDL -/

/-- R130: `WRL` replaces exactly the addressed limb; every other location of the limb address space (`STATUS` included)
and every other field keeps its value; the unspecified `rdata` is the model's free value (log entry 4). -/
def Obligations.WrlWritesExactlyOneLimb : Prop :=
  ∀ (reg : Reg) (idx : Nat) (s : State), reg.writableAt idx = true →
    ∃ t, exec (.wrl reg idx) s = .next t ∧ t.readLimb reg idx = s.wdata ∧
      (∀ r j, r ≠ reg ∨ j ≠ idx → t.readLimb r j = s.readLimb r j) ∧
      t = { s with
        A := t.A
        B := t.B
        P := t.P
        rdata := Config.freeRdata s.fresh
        fresh := s.fresh + 1 }

/-- R131: `RDL` answers the addressed limb, or `STATUS`, and changes no other state. -/
def Obligations.RdlAnswersAndChangesNothing : Prop :=
  ∀ s : State,
    (∀ idx (h : idx < 8), exec (.rdl .a idx) s = .next { s with rdata := s.A[idx] }) ∧
    (∀ idx (h : idx < 8), exec (.rdl .b idx) s = .next { s with rdata := s.B[idx] }) ∧
    (∀ idx (h : idx < 16), exec (.rdl .p idx) s = .next { s with rdata := s.P[idx] }) ∧
    ∃ t, exec (.rdl .st 0) s = .next t ∧ t = { s with rdata := t.rdata } ∧
      t.rdata.toNat = s.CF.toNat + 2 * s.BF.toNat + 4 * s.KB.toNat + 8 * s.ERR.toNat

/-- R26: the layout of `STATUS` as `RDL` answers it, and that `WRL` does not write it: the model's reading of a `WRL` to
`ST` built as a command (log entry 7) is that only `ERR` changes there. -/
def Obligations.StatusBits : Prop :=
  ∀ s : State,
    (∃ t, exec (.rdl .st 0) s = .next t ∧ t.rdata.getLsbD 0 = s.CF ∧ t.rdata.getLsbD 1 = s.BF ∧
      t.rdata.getLsbD 2 = s.KB ∧ t.rdata.getLsbD 3 = s.ERR ∧ ∀ k, 4 ≤ k → t.rdata.getLsbD k = false) ∧
    ∀ idx, ∃ t, exec (.wrl .st idx) s = .next t ∧ statusWord t = statusWord { s with ERR := true }

/-- R46, R48: a limb written is what the next command reads there (V-HOST-11). The two words are issued as the model's
list of events (log entry 1). -/
def Obligations.WrittenLimbReadsBack : Prop :=
  ∀ (reg : Reg) (idx : Nat) (s : State) (v w : Limb), reg.writableAt idx = true →
    ∃ t, core.run 2 { s with
        pending := [.command (encode (.wrl reg idx)) v, .command (encode (.rdl reg idx)) w] } = .next t ∧
      t.rdata = v

/-- R130: writes to different limbs commute. The words are issued as the model's list of events (log entry 1). -/
def Obligations.WritesToDifferentLimbsCommute : Prop :=
  ∀ (reg reg' : Reg) (idx idx' : Nat) (s : State) (v v' : Limb),
    reg.writableAt idx = true → reg'.writableAt idx' = true → reg ≠ reg' ∨ idx ≠ idx' →
    ∃ t t', core.run 2 { s with
          pending := [.command (encode (.wrl reg idx)) v, .command (encode (.wrl reg' idx')) v'] } = .next t ∧
      core.run 2 { s with
          pending := [.command (encode (.wrl reg' idx')) v', .command (encode (.wrl reg idx)) v] } = .next t' ∧
      SameItems t t'

/-! ### ADD, ADDX, SUB

In the statements about `ADD` to `RED256` the last clause says that every field not named keeps its value; the
unspecified `rdata` is the model's free value, and `fresh` counts it (log entries 4 and 6). -/

/-- R80: the sum of the low `n` limbs with its carry in `CF`; limbs `A[n..8)` and everything else unchanged. -/
def Obligations.AddResult : Prop :=
  ∀ (n : Nat) (s : State), 1 ≤ n → n ≤ 8 →
    ∃ t, exec (.add n) s = .next t ∧
      val (slice t.A 0 n) + t.CF.toNat * Config.radix ^ n = val (slice s.A 0 n) + val (slice s.B 0 n) ∧
      slice t.A n (8 - n) = slice s.A n (8 - n) ∧
      t = { s with A := t.A, CF := t.CF, rdata := Config.freeRdata s.fresh, fresh := s.fresh + 1 }

/-- R81: `A[0..n)` added into the window of `P`, the carry left at the window's end in `CF`; limbs of `P` outside the
window and everything else unchanged. -/
def Obligations.AddxResult : Prop :=
  ∀ (off m n : Nat) (s : State), 1 ≤ n → n ≤ 8 → n ≤ m → off + m ≤ 16 →
    ∃ t, exec (.addx off m n) s = .next t ∧
      val (slice t.P off m) + t.CF.toNat * Config.radix ^ m = val (slice s.P off m) + val (slice s.A 0 n) ∧
      slice t.P 0 off = slice s.P 0 off ∧
      slice t.P (off + m) (16 - (off + m)) = slice s.P (off + m) (16 - (off + m)) ∧
      t = { s with P := t.P, CF := t.CF, rdata := Config.freeRdata s.fresh, fresh := s.fresh + 1 }

/-- R82: the difference modulo `B^n`, `BF` 1 exactly where `A[0..n)` is the smaller; limbs `P[n..16)` and everything
else unchanged. -/
def Obligations.SubResult : Prop :=
  ∀ (n : Nat) (s : State), 1 ≤ n → n ≤ 8 →
    ∃ t, exec (.sub n) s = .next t ∧
      val (slice t.P 0 n) + val (slice s.B 0 n) = val (slice s.A 0 n) + t.BF.toNat * Config.radix ^ n ∧
      t.BF = decide (val (slice s.A 0 n) < val (slice s.B 0 n)) ∧
      slice t.P n (16 - n) = slice s.P n (16 - n) ∧
      t = { s with P := t.P, BF := t.BF, rdata := Config.freeRdata s.fresh, fresh := s.fresh + 1 }

/-! ### The multipliers -/

/-- R95: the exact product of the low halves in `P[0..8)`; `P[8..16)`, the flags and everything else unchanged. -/
def Obligations.Muls4Result : Prop :=
  ∀ s : State, ∃ t, exec .muls4 s = .next t ∧
    val (slice t.P 0 8) = val (slice s.A 0 4) * val (slice s.B 0 4) ∧
    slice t.P 8 8 = slice s.P 8 8 ∧
    t = { s with P := t.P, rdata := Config.freeRdata s.fresh, fresh := s.fresh + 1 }

/-- R96: the exact product in `P`; the flags and everything else unchanged. -/
def Obligations.Muls8Result : Prop :=
  ∀ s : State, ∃ t, exec .muls8 s = .next t ∧
    val t.P.toList = val s.A.toList * val s.B.toList ∧
    t = { s with P := t.P, rdata := Config.freeRdata s.fresh, fresh := s.fresh + 1 }

/-- R108, R110: the Karatsuba multiplier leaves the exact product in `P` for all operands, and 0 in `KB`. -/
def Obligations.MulkIsExact : Prop :=
  ∀ s : State, ∃ t, exec .mulk s = .next t ∧
    val t.P.toList = val s.A.toList * val s.B.toList ∧
    t = { s with P := t.P, KB := false, rdata := Config.freeRdata s.fresh, fresh := s.fresh + 1 }

/-- R106: neither subtraction of the cross term borrows, and the cross term's value and bounds. -/
def Obligations.CrossTermNeverBorrows : Prop :=
  ∀ a b : List Limb, a.length = 8 → b.length = 8 →
    (crossLessLow a b).2 = false ∧ (crossTerm a b).2 = false ∧
    val (crossTerm a b).1 = val (lowHalf a) * val (highHalf b) + val (highHalf a) * val (lowHalf b) ∧
    val (crossTerm a b).1 ≤ 2 * (Config.radix ^ 4 - 1) ^ 2 ∧
    2 * (Config.radix ^ 4 - 1) ^ 2 < 2 * Config.radix ^ 8 ∧
    (crossTerm a b).1.drop 9 = zeros 3 ∧ ((crossTerm a b).1.getD 8 0).toNat ≤ 1

/-- R108: neither addition of the recombination carries out, and the result is the exact product. -/
def Obligations.RecombinationIsExact : Prop :=
  ∀ a b : List Limb, a.length = 8 → b.length = 8 →
    (withCrossTerm (lowProduct a b) (crossTerm a b).1).2 = false ∧
    (withHighProduct (withCrossTerm (lowProduct a b) (crossTerm a b).1).1 (highProduct a b)).2 = false ∧
    (mulKaratsuba a b).1.length = 16 ∧ val (mulKaratsuba a b).1 = val a * val b

/-- R111: the Karatsuba multiplier returns the same limbs as the schoolbook multiplier; from equal operands `MULK` and
`MULS8` leave equal `P`. -/
def Obligations.KaratsubaEqualsSchoolbook : Prop :=
  (∀ a b : List Limb, a.length = 8 → b.length = 8 → (mulKaratsuba a b).1 = mulSchool a b) ∧
  ∀ s s' : State, s.A = s'.A → s.B = s'.B →
    ∃ t t', exec .mulk s = .next t ∧ exec .muls8 s' = .next t' ∧ t.P = t'.P

/-! ### The reducer -/

/-- R117: the increment after a fold that carried does not carry, and the loop of R116, however many passes it is
given, ends after at most one with carry 0 and the limbs of the model's `if`. -/
def Obligations.EndAroundRunsAtMostOnce : Prop :=
  ∀ x : List Limb, x.length = 16 →
    ((foldHalves x).2 = true → (endAroundPass (foldHalves x).1).2 = false) ∧
    ∀ passes, endAroundLoop (passes + 1) (foldHalves x) = (endAround (foldHalves x), false)

/-- R119: range, congruence and closed form of the residue, for both values of `CANON_ALL_ONES`. -/
def Obligations.ResidueRangeAndCongruence : Prop :=
  ∀ x : List Limb, x.length = 16 →
    let v := val x
    let r := val ((reduce256 x).take 8)
    let t := val (x.take 8) + val (x.drop 8)
    r % Config.modulus = v % Config.modulus ∧ r ≤ Config.modulus ∧
    (r = if v = 0 then 0 else (v - 1) % Config.modulus + 1) ∧
    (r = if t ≤ Config.modulus then t else t - Config.modulus) ∧
    val (canonicalize true (endAround (foldHalves x))) = v % Config.modulus

/-- R120: when the two special residues arise, and that every other input gives the canonical residue. -/
def Obligations.SpecialResidues : Prop :=
  ∀ x : List Limb, x.length = 16 →
    ((reduce256 x).take 8 = zeros 8 ↔ x = zeros 16) ∧
    ((reduce256 x).take 8 = ones 8 ↔ 0 < val x ∧ val x % Config.modulus = 0) ∧
    ((reduce256 x).take 8 = ones 8 ↔
      val (x.take 8) + val (x.drop 8) = Config.modulus ∨ val (x.take 8) + val (x.drop 8) = 2 * Config.modulus) ∧
    (val (x.take 8) + val (x.drop 8) = 2 * Config.modulus ↔ x = ones 16) ∧
    (x ≠ zeros 16 → ¬ (0 < val x ∧ val x % Config.modulus = 0) →
      val ((reduce256 x).take 8) = val x % Config.modulus ∧ 1 ≤ val x % Config.modulus ∧
        val x % Config.modulus ≤ Config.modulus - 1)

/-- R121: an already reduced value is left as it is, `ones(8)` included, and reducing twice is reducing once. With
`CANON_ALL_ONES = true` the first would fail for `ones(8)` only. -/
def Obligations.ReductionIsIdempotent : Prop :=
  ∀ x : List Limb, x.length = 16 →
    (x.drop 8 = zeros 8 → reduce256 x = x) ∧ reduce256 (reduce256 x) = reduce256 x ∧
    (x.drop 8 = zeros 8 →
      (canonicalize true (endAround (foldHalves x)) ++ zeros 8 = x ↔ x.take 8 ≠ ones 8))

/-- R122, R119: `RED256` leaves the residue of `P` in `P[0..8)` and zeros above it; flags and everything else
unchanged. -/
def Obligations.RedResult : Prop :=
  ∀ s : State, ∃ t, exec .red256 s = .next t ∧
    val (slice t.P 0 8) = (if val s.P.toList = 0 then 0 else (val s.P.toList - 1) % Config.modulus + 1) ∧
    slice t.P 8 8 = zeros 8 ∧
    t = { s with P := t.P, rdata := Config.freeRdata s.fresh, fresh := s.fresh + 1 }

/-- R122, R121: after `MULK` or `MULS8`, `RED256` leaves a residue of `val(A)·val(B)` modulo `M`; a second `RED256`
leaves `P` as it is. -/
def Obligations.MultiplyThenReduce : Prop :=
  ∀ (i : Instr) (s : State), i = .mulk ∨ i = .muls8 →
    ∃ t u w, exec i s = .next t ∧ exec .red256 t = .next u ∧ exec .red256 u = .next w ∧
      val (slice u.P 0 8) % Config.modulus = (val s.A.toList * val s.B.toList) % Config.modulus ∧
      val (slice u.P 0 8) ≤ Config.modulus ∧ w.P = u.P
end

