-- ==== Sys2Proof/Tests/Slice0.lean ====
section
/-! SUPPORT. Slice0: tests of one step each, expected values from spec/96 and spec/95 (the vector is named), and one witness per statement with hypotheses. -/

namespace Sys2Proof.Tests
open Sys2Proof.Machine Sys2Proof.Safety

/-- A register with these limbs, limb 0 first; missing limbs are 0. -/
def regOf (n : Nat) (l : List Nat) : Limbs n := Vector.ofFn fun i => BitVec.ofNat Config.limbBits (l.getD i.val 0)

/-- A state with these registers and `CF`, `BF`, `KB` set, so that a flag written as 0 and a flag kept both show. -/
def stateOf (a b p : List Nat) : State :=
  { A := regOf 8 a
    B := regOf 8 b
    P := regOf 16 p
    CF := true
    BF := true
    KB := true
    ERR := false
    pending := []
    wdata := 0
    rdata := 0
    fresh := 0 }

/-- The limbs of a register as numbers. -/
def limbs {n : Nat} (v : Limbs n) : List Nat := v.toList.map BitVec.toNat

/-- What `f` sees of the next state, if there is one. -/
def after {α : Type} (o : Host.Outcome State Fault Refusal) (f : State → α) : Option α :=
  match o with
  | .next t => some (f t)
  | _ => none

/-! ### WellFormed: one ill-formed term for each check, refused -/

theorem test_wrl_ill_formed :
    [Instr.wrl .a 8, .wrl .b 8, .wrl .p 16, .wrl .st 0].map Instr.wellFormed = [false, false, false, false] := by
  decide

theorem test_rdl_ill_formed :
    [Instr.rdl .a 8, .rdl .b 8, .rdl .p 16, .rdl .st 1].map Instr.wellFormed = [false, false, false, false] := by
  decide

theorem test_add_sub_ill_formed :
    [Instr.add 0, .add 9, .sub 0, .sub 9].map Instr.wellFormed = [false, false, false, false] := by
  decide

/-- V-ILL-13 to V-ILL-16, as terms: `n` 0, `n` over 8, `n` over `m`, window past the end. -/
theorem test_addx_ill_formed :
    [Instr.addx 0 4 0, .addx 0 16 9, .addx 0 3 4, .addx 13 4 4].map Instr.wellFormed = [false, false, false, false] := by
  decide

/-- R6: the parameters, and how they hang together. -/
theorem test_parameters :
    Config.limbBits = 32 ∧ Config.radix = 4294967296 ∧ Config.halfLimbs = 4 ∧
      Config.operandLimbs = 2 * Config.halfLimbs ∧ Config.productLimbs = 4 * Config.halfLimbs ∧
      Config.crossLimbs = 3 * Config.halfLimbs ∧ Config.modulus = 2 ^ 256 - 1 ∧ Config.canonAllOnes = false ∧
      Config.cmdBits = 32 := by
  decide

/-! ### Decode: every constructor by a word written out from R58 and R61 -/

/-- V-DEC-1 to V-DEC-6. -/
theorem test_decode_host_access :
    [0x01000000, 0x01000007, 0x01000107, 0x0100020F, 0x02000300, 0x0200020F].map (decodeTableWord 32) =
      [some (.wrl .a 0), some (.wrl .a 7), some (.wrl .b 7), some (.wrl .p 15), some (.rdl .st 0),
        some (.rdl .p 15)] := by
  decide

/-- V-DEC-7 to V-DEC-10. -/
theorem test_decode_add_sub :
    [0x10000001, 0x10000008, 0x12000001, 0x12000008].map (decodeTableWord 32) =
      [some (.add 1), some (.add 8), some (.sub 1), some (.sub 8)] := by
  decide

/-- V-DEC-11 to V-DEC-16. -/
theorem test_decode_addx :
    [0x11000101, 0x110F0101, 0x11001008, 0x11080808, 0x11040C08, 0x11000F01].map (decodeTableWord 32) =
      [some (.addx 0 1 1), some (.addx 15 1 1), some (.addx 0 16 8), some (.addx 8 8 8), some (.addx 4 12 8),
        some (.addx 0 15 1)] := by
  decide

/-- V-DEC-17 to V-DEC-20. -/
theorem test_decode_bare :
    [0x20000000, 0x21000000, 0x22000000, 0x30000000].map (decodeTableWord 32) =
      [some .muls4, some .muls8, some .mulk, some .red256] := by
  decide

/-- V-ILL-1 to V-ILL-12, by the way each is illegal. -/
theorem test_decode_illegal_one :
    [0x00000000, 0xFFFFFFFF, 0x03000000, 0x13000001, 0x23000000, 0x31000000, 0x10000000, 0x10000009, 0x10000104,
        0x10010004, 0x12000000, 0x120000FF].map decode =
      [.error .unknownOpcode, .error .unknownOpcode, .error .unknownOpcode, .error .unknownOpcode,
        .error .unknownOpcode, .error .unknownOpcode, .error .operandOutOfRange, .error .operandOutOfRange,
        .error .fieldNotZero, .error .fieldNotZero, .error .operandOutOfRange, .error .operandOutOfRange] := by
  rfl

/-- V-ILL-13 to V-ILL-23. -/
theorem test_decode_illegal_two :
    [0x11000400, 0x11001009, 0x11000304, 0x110D0404, 0x11100101, 0x11001101, 0x11FF0101, 0x01000008, 0x01000210,
        0x01000300, 0x01000400].map isLegalWord = List.replicate 11 false := by
  decide

/-- V-ILL-24 to V-ILL-31. -/
theorem test_decode_illegal_three :
    [0x01010000, 0x02000108, 0x02000301, 0x0200FF00, 0x20000001, 0x21000100, 0x22010000, 0x30000008].map isLegalWord =
      List.replicate 8 false := by
  decide

/-- The encoder, by V-DEC-4, 5, 8, 10, 13 and 17 to 20. -/
theorem test_encode :
    [Instr.wrl .p 15, .rdl .st 0, .add 8, .sub 8, .addx 0 16 8, .muls4, .muls8, .mulk, .red256].map encode =
      [0x0100020F, 0x02000300, 0x10000008, 0x12000008, 0x11001008, 0x20000000, 0x21000000, 0x22000000,
        0x30000000] := by
  decide

/-! ### Each command -/

/-- V-HOST-1. -/
theorem test_wrl_b7 :
    after (exec (.wrl .b 7) { stateOf [] [1, 2, 3, 4, 5, 6, 7, 8] [] with wdata := 0xFFFFFFFF })
      (fun t => (limbs t.A, limbs t.B, limbs t.P)) =
    some (List.replicate 8 0, [1, 2, 3, 4, 5, 6, 7, 0xFFFFFFFF], List.replicate 16 0) := by
  decide

/-- V-HOST-3. -/
theorem test_wrl_p15 :
    after (exec (.wrl .p 15) { stateOf [] [] [] with wdata := 0x12345678 }) (fun t => limbs t.P) =
    some (List.replicate 15 0 ++ [0x12345678]) := by
  decide

/-- V-HOST-5. -/
theorem test_rdl_a7 :
    after (exec (.rdl .a 7) (stateOf [0, 0, 0, 0, 0, 0, 0, 0x80000001] [] [])) State.rdata = some 0x80000001 := by
  decide

/-- V-HOST-7. -/
theorem test_rdl_st :
    after (exec (.rdl .st 0) { stateOf [] [] [] with CF := false, KB := false, ERR := true })
      (fun t => (t.rdata, t.ERR)) = some (0xA, true) := by
  decide

/-- V-ADD-1. -/
theorem test_add_carry_through_all :
    after (exec (.add 8)
      (stateOf
        [0xFFFFFFFF, 0xFFFFFFFF, 0xFFFFFFFF, 0xFFFFFFFF, 0xFFFFFFFF, 0xFFFFFFFF, 0xFFFFFFFF, 0xFFFFFFFF]
        [0x1, 0, 0, 0, 0, 0, 0, 0]
        []))
      (fun t => (limbs t.A, t.CF)) =
    some ([0, 0, 0, 0, 0, 0, 0, 0], true) := by
  decide +kernel

/-- V-ADD-4. -/
theorem test_add_one_limb :
    after (exec (.add 1)
      (stateOf
        [0xFFFFFFFF, 0x5, 0x6, 0x7, 0x8, 0x9, 0xA, 0xB]
        [0x1, 0x1, 0x1, 0x1, 0x1, 0x1, 0x1, 0x1]
        []))
      (fun t => (limbs t.A, t.CF)) =
    some ([0, 0x5, 0x6, 0x7, 0x8, 0x9, 0xA, 0xB], true) := by
  decide +kernel

/-- V-ADDX-1. -/
theorem test_addx_absorbed :
    after (exec (.addx 4 4 1)
      (stateOf
        [0x1, 0xAAAAAAAA, 0, 0, 0, 0, 0, 0]
        []
        [0x11111111, 0x22222222, 0x33333333, 0x44444444, 0xFFFFFFFF, 0xFFFFFFFF, 0, 0x5, 0x99999999, 0x99999999, 0x99999999, 0x99999999, 0x99999999, 0x99999999, 0x99999999, 0x99999999]))
      (fun t => (limbs t.P, t.CF)) =
    some ([0x11111111, 0x22222222, 0x33333333, 0x44444444, 0, 0, 0x1, 0x5, 0x99999999, 0x99999999, 0x99999999, 0x99999999, 0x99999999, 0x99999999, 0x99999999, 0x99999999], false) := by
  decide +kernel

/-- V-ADDX-2. -/
theorem test_addx_carry_stays_at_window_end :
    after (exec (.addx 4 4 2)
      (stateOf
        [0x2, 0, 0, 0, 0, 0, 0, 0]
        []
        [0, 0, 0, 0, 0xFFFFFFFF, 0xFFFFFFFF, 0xFFFFFFFF, 0xFFFFFFFF, 0x77777777, 0, 0, 0, 0, 0, 0, 0]))
      (fun t => (limbs t.P, t.CF)) =
    some ([0, 0, 0, 0, 0x1, 0, 0, 0, 0x77777777, 0, 0, 0, 0, 0, 0, 0], true) := by
  decide +kernel

/-- V-SUB-2. -/
theorem test_sub_wraps :
    after (exec (.sub 4)
      (stateOf
        [0x1, 0, 0, 0, 0x3, 0x3, 0x3, 0x3]
        [0, 0, 0, 0x1, 0x9, 0x9, 0x9, 0x9]
        [0x55555555, 0x55555555, 0x55555555, 0x55555555, 0x55555555, 0x55555555, 0x55555555, 0x55555555, 0x55555555, 0x55555555, 0x55555555, 0x55555555, 0x55555555, 0x55555555, 0x55555555, 0x55555555]))
      (fun t => (limbs t.P, t.BF)) =
    some ([0x1, 0, 0, 0xFFFFFFFF, 0x55555555, 0x55555555, 0x55555555, 0x55555555, 0x55555555, 0x55555555, 0x55555555, 0x55555555, 0x55555555, 0x55555555, 0x55555555, 0x55555555], true) := by
  decide +kernel

/-- V-SUB-6. -/
theorem test_sub_inner_borrows :
    after (exec (.sub 8)
      (stateOf
        [0, 0, 0x12345678, 0x9ABCDEF0, 0, 0, 0, 0x80000000]
        [0x1, 0xFFFFFFFF, 0x12345678, 0xABCDEF0, 0, 0, 0, 0x7FFFFFFF]
        [0x55555555, 0x55555555, 0x55555555, 0x55555555, 0x55555555, 0x55555555, 0x55555555, 0x55555555, 0x55555555, 0x55555555, 0x55555555, 0x55555555, 0x55555555, 0x55555555, 0x55555555, 0x55555555]))
      (fun t => (limbs t.P, t.BF)) =
    some ([0xFFFFFFFF, 0, 0xFFFFFFFF, 0x8FFFFFFF, 0, 0, 0, 0x1, 0x55555555, 0x55555555, 0x55555555, 0x55555555, 0x55555555, 0x55555555, 0x55555555, 0x55555555], false) := by
  decide +kernel

/-- V-MS4-4. -/
theorem test_muls4_general :
    after (exec (.muls4)
      (stateOf
        [0x1234567, 0x89ABCDEF, 0xFEDCBA98, 0x76543210, 0xDEADBEEF, 0xCAFEBABE, 0xBADF00D, 0xFFFFFFFF]
        [0x11111111, 0x22222222, 0x33333333, 0x44444444, 0xFFFFFFFF, 0xFFFFFFFF, 0xFFFFFFFF, 0xFFFFFFFF]
        [0xC0000000, 0xC0000001, 0xC0000002, 0xC0000003, 0xC0000004, 0xC0000005, 0xC0000006, 0xC0000007, 0xC0000008, 0xC0000009, 0xC000000A, 0xC000000B, 0xC000000C, 0xC000000D, 0xC000000E, 0xC000000F]))
      (fun t => (limbs t.P, t.CF, t.BF, t.KB)) =
    some ([0xDDCA72D7, 0xD49CDC93, 0xE5C158AB, 0xDDDDDDDD, 0x88E99FAA, 0x2DF75A56, 0xB38A94D2, 0x1F8DEB37, 0xC0000008, 0xC0000009, 0xC000000A, 0xC000000B, 0xC000000C, 0xC000000D, 0xC000000E, 0xC000000F], true, true, true) := by
  decide +kernel

/-- V-MS4-1. -/
theorem test_muls4_keeps_upper_product :
    after (exec (.muls4)
      (stateOf
        [0, 0, 0, 0, 0xFFFFFFFF, 0xFFFFFFFF, 0xFFFFFFFF, 0xFFFFFFFF]
        [0xFFFFFFFF, 0xFFFFFFFF, 0xFFFFFFFF, 0xFFFFFFFF, 0xFFFFFFFF, 0xFFFFFFFF, 0xFFFFFFFF, 0xFFFFFFFF]
        [0xC0000000, 0xC0000001, 0xC0000002, 0xC0000003, 0xC0000004, 0xC0000005, 0xC0000006, 0xC0000007, 0xC0000008, 0xC0000009, 0xC000000A, 0xC000000B, 0xC000000C, 0xC000000D, 0xC000000E, 0xC000000F]))
      (fun t => (limbs t.P, t.CF, t.BF, t.KB)) =
    some ([0, 0, 0, 0, 0, 0, 0, 0, 0xC0000008, 0xC0000009, 0xC000000A, 0xC000000B, 0xC000000C, 0xC000000D, 0xC000000E, 0xC000000F], true, true, true) := by
  decide +kernel

/-- V-MS8-3. -/
theorem test_muls8_all_ones :
    after (exec (.muls8)
      (stateOf
        [0xFFFFFFFF, 0xFFFFFFFF, 0xFFFFFFFF, 0xFFFFFFFF, 0xFFFFFFFF, 0xFFFFFFFF, 0xFFFFFFFF, 0xFFFFFFFF]
        [0xFFFFFFFF, 0xFFFFFFFF, 0xFFFFFFFF, 0xFFFFFFFF, 0xFFFFFFFF, 0xFFFFFFFF, 0xFFFFFFFF, 0xFFFFFFFF]
        []))
      (fun t => (limbs t.P, t.CF, t.BF, t.KB)) =
    some ([0x1, 0, 0, 0, 0, 0, 0, 0, 0xFFFFFFFE, 0xFFFFFFFF, 0xFFFFFFFF, 0xFFFFFFFF, 0xFFFFFFFF, 0xFFFFFFFF, 0xFFFFFFFF, 0xFFFFFFFF], true, true, true) := by
  decide +kernel

/-- V-MS8-6. -/
theorem test_muls8_top_bits :
    after (exec (.muls8)
      (stateOf
        [0, 0, 0, 0, 0, 0, 0, 0x80000000]
        [0, 0, 0, 0, 0, 0, 0, 0x80000000]
        []))
      (fun t => (limbs t.P, t.CF, t.BF, t.KB)) =
    some ([0, 0, 0, 0, 0, 0, 0, 0, 0, 0, 0, 0, 0, 0, 0, 0x40000000], true, true, true) := by
  decide +kernel

/-- V-MK-5. -/
theorem test_mulk_half_sums_overflow :
    after (exec (.mulk)
      (stateOf
        [0x1234567, 0x89ABCDEF, 0xFEDCBA98, 0x76543210, 0xDEADBEEF, 0xCAFEBABE, 0xBADF00D, 0xFFFFFFFF]
        [0x11111111, 0x22222222, 0x33333333, 0x44444444, 0xFFFFFFFF, 0xFFFFFFFF, 0xFFFFFFFF, 0xFFFFFFFF]
        []))
      (fun t => (limbs t.P, t.CF, t.BF, t.KB)) =
    some ([0xDDCA72D7, 0xD49CDC93, 0xE5C158AB, 0xDDDDDDDD, 0x67DCE722, 0xDD400CD3, 0x75638EE8, 0xE166E54D, 0x82BA7ACB, 0x6B7F01C8, 0xE53B0A8E, 0xBA987655, 0xDEADBEEE, 0xCAFEBABE, 0xBADF00D, 0xFFFFFFFF], true, true, false) := by
  decide +kernel

/-- V-MK-8. -/
theorem test_mulk_carries_differ :
    after (exec (.mulk)
      (stateOf
        [0xFFFFFFFF, 0xFFFFFFFF, 0xFFFFFFFF, 0xFFFFFFFF, 0xFFFFFFFF, 0xFFFFFFFF, 0xFFFFFFFF, 0x7FFFFFFF]
        [0xFFFFFFFF, 0xFFFFFFFF, 0xFFFFFFFF, 0x7FFFFFFF, 0, 0, 0, 0x80000000]
        []))
      (fun t => (limbs t.P, t.CF, t.BF, t.KB)) =
    some ([0x1, 0, 0, 0x80000000, 0xFFFFFFFF, 0xFFFFFFFF, 0xFFFFFFFF, 0xFFFFFFFF, 0xFFFFFFFE, 0xFFFFFFFF, 0xFFFFFFFF, 0x3FFFFFFF, 0, 0, 0, 0x40000000], true, true, false) := by
  decide +kernel

/-- V-RED-5. -/
theorem test_red256_all_ones_stays :
    after (exec (.red256)
      (stateOf
        []
        []
        [0xFFFFFFFF, 0xFFFFFFFF, 0xFFFFFFFF, 0xFFFFFFFF, 0xFFFFFFFF, 0xFFFFFFFF, 0xFFFFFFFF, 0xFFFFFFFF, 0xFFFFFFFF, 0xFFFFFFFF, 0xFFFFFFFF, 0xFFFFFFFF, 0xFFFFFFFF, 0xFFFFFFFF, 0xFFFFFFFF, 0xFFFFFFFF]))
      (fun t => (limbs t.P, t.CF, t.BF, t.KB)) =
    some ([0xFFFFFFFF, 0xFFFFFFFF, 0xFFFFFFFF, 0xFFFFFFFF, 0xFFFFFFFF, 0xFFFFFFFF, 0xFFFFFFFF, 0xFFFFFFFF, 0, 0, 0, 0, 0, 0, 0, 0], true, true, true) := by
  decide +kernel

/-- V-RED-7. -/
theorem test_red256_fold_carry :
    after (exec (.red256)
      (stateOf
        []
        []
        [0xDDCA72D7, 0xD49CDC93, 0xE5C158AB, 0xDDDDDDDD, 0x67DCE722, 0xDD400CD3, 0x75638EE8, 0xE166E54D, 0x82BA7ACB, 0x6B7F01C8, 0xE53B0A8E, 0xBA987655, 0xDEADBEEE, 0xCAFEBABE, 0xBADF00D, 0xFFFFFFFF]))
      (fun t => (limbs t.P, t.CF, t.BF, t.KB)) =
    some ([0x6084EDA3, 0x401BDE5C, 0xCAFC633A, 0x98765433, 0x468AA611, 0xA83EC792, 0x81117EF6, 0xE166E54C, 0, 0, 0, 0, 0, 0, 0, 0], true, true, true) := by
  decide +kernel

/-! ### Reset, and a word placed for the next step -/

/-- R29, V-HOST-8. -/
theorem test_reset_status : after (exec (.rdl .st 0) State.reset) State.rdata = some 0 := by
  decide

/-- V-ILL-1 and PR3 line 15: an illegal word after reset sets `ERR`, and the core goes on. -/
theorem test_illegal_after_reset :
    [0x00000000, 0x10000000].map (fun w => after (step (State.reset.withFetchWord 32 w))
      (fun t => (statusWord t, t.pending.length))) =
      [some (8, 0), some (8, 0)] := by
  decide

/-- R57: a word placed is the command the next step runs (V-HOST-2, from reset, with the data word on the port 0). -/
theorem test_placed_word_runs :
    after (step (State.reset.withFetchWord 32 0x01000000)) (fun t => (t.A.toList.head?, t.ERR, t.pending)) =
      some (some 0, false, []) := by
  decide

/-! ### Witnesses: states and operands that meet the hypotheses of each statement together -/

/-- A small state with nothing pending. -/
def idle : State := stateOf [1, 2, 3, 4, 5, 6, 7, 8] [8, 7, 6, 5, 4, 3, 2, 1] [9]

/-- `idle` with these events issued. -/
def issued (events : List HostEvent) : State := { idle with pending := events }

/-- No legal command has the all-zero word (R62). -/
theorem zero_word_illegal : ∀ i : Instr, i.wellFormed = true → encode i ≠ 0x00000000 := by
  intro i hw he
  have hz : fieldAt (0x00000000 : CmdWord) 24 = 0 := by decide
  have h : fieldAt (encode i) 24 = Laws.Encoding.opcode i := by
    cases i with
    | wrl reg idx => exact Laws.Encoding.wrl reg idx hw
    | rdl reg idx => exact Laws.Encoding.rdl reg idx hw
    | add n => exact Laws.Encoding.add n hw
    | addx off m n => exact Laws.Encoding.addx off m n hw
    | sub n => exact Laws.Encoding.sub n hw
    | muls4 => exact Laws.Encoding.muls4 hw
    | muls8 => exact Laws.Encoding.muls8 hw
    | mulk => exact Laws.Encoding.mulk hw
    | red256 => exact Laws.Encoding.red256 hw
  rw [he, hz] at h
  cases i <;> cases h

theorem witness_EncodeThenDecode :
    [Instr.wrl .a 0, .wrl .b 7, .wrl .p 15, .rdl .st 0, .rdl .p 15, .add 1, .add 8, .addx 0 16 8, .addx 15 1 1,
      .sub 8, .muls4, .muls8, .mulk, .red256].all Instr.wellFormed = true := by
  decide

theorem witness_DecodeThenEncode : decode 0x110F0101 = .ok (.addx 15 1 1) := rfl

theorem witness_StepRunsDecodedCommand :
    (issued [.command 0x10000008 5, .reset]).pending = [.command 0x10000008 5, .reset] ∧
      decode 0x10000008 = .ok (.add 8) := ⟨rfl, rfl⟩

theorem witness_IssuedCommandRunsNext : (Instr.addx 0 16 8).wellFormed = true := by decide

theorem witness_IllegalWordOnlySetsErr_effect :
    (issued [.command 0x00000000 5]).pending = [.command 0x00000000 5] ∧
      ∀ i : Instr, i.wellFormed = true → encode i ≠ 0x00000000 := ⟨rfl, zero_word_illegal⟩

/-- One word for each disjunct: listed, unknown opcode, register code 4, non-zero field of format N, of format Z. -/
theorem witness_IllegalWordOnlySetsErr_words :
    (0x110D0404 : CmdWord) ∈ [(0x11001009 : CmdWord), 0x110D0404] ∧
      fieldAt 0x31000000 24 ∉ [0x01, 0x02, 0x10, 0x11, 0x12, 0x20, 0x21, 0x22, 0x30] ∧
      (fieldAt 0x02000400 24 ∈ [0x01, 0x02] ∧ fieldAt 0x02000400 8 > 3) ∧
      (fieldAt 0x10000104 24 ∈ [0x10, 0x12] ∧ fieldAt 0x10000104 8 ≠ 0) ∧
      (fieldAt 0x30000008 24 ∈ [0x20, 0x21, 0x22, 0x30] ∧ fieldAt 0x30000008 0 ≠ 0) := by
  decide

theorem witness_IdleKeepsAllState : State.reset.pending = [] ∧ idle.pending = [] := ⟨rfl, rfl⟩

theorem witness_ResetEventEffect : (issued [.reset, .reset]).pending = .reset :: [.reset] := rfl

theorem witness_ResetClearsFlags : resetNext (issued [.reset]) = true := by decide

theorem witness_NoLegalCommandFails : (Instr.sub 8).wellFormed = true ∧ (Instr.rdl .st 0).wellFormed = true := by decide

theorem witness_StepTakesOneEvent :
    step idle = .next idle ∧
      step (issued [.reset, .command 0 0]) = .next (issued [.command 0 0]).applyReset := ⟨rfl, rfl⟩

theorem witness_SameItemsSameCommandsSameEnd :
    SameItems (issued [.command 0x02000300 0]) { issued [.command 0x02000300 0] with rdata := 7, fresh := 9 } ∧
      OnlyCommands (issued [.command 0x02000300 0]) ∧
      core.run 0 (issued [.command 0x02000300 0]) = .next (issued [.command 0x02000300 0]) ∧
      decode 0x02000300 = .ok (.rdl .st 0) := by
  refine ⟨⟨rfl, rfl, rfl, rfl, rfl, rfl, rfl⟩, by decide, rfl, rfl⟩

theorem witness_OperandOutOfRangeRaises :
    [Instr.wrl .st 0, .rdl .st 1, .add 9, .addx 13 4 4, .sub 0].map Instr.wellFormed =
      [false, false, false, false, false] := by
  decide

/-- One step for each of the three outcomes: reset, an illegal word, anything else. -/
theorem witness_ErrWrittenByIllegalWordAndResetOnly :
    (resetNext (issued [.reset]) = true ∧ step (issued [.reset]) = .next idle.applyReset) ∧
      (resetNext (issued [.command 0 0]) = false ∧ illegalNext (issued [.command 0 0]) = true ∧
        step (issued [.command 0 0]) = .next idle.raiseIllegalCommand) ∧
      resetNext idle = false ∧ illegalNext idle = false ∧ step idle = .next idle := by
  refine ⟨⟨by decide, rfl⟩, ⟨by decide, by decide, rfl⟩, by decide, by decide, rfl⟩

theorem witness_ErrIsStickyAndStopsNothing_kept :
    ({ idle with ERR := true } : State).ERR = true ∧ resetNext { idle with ERR := true } = false ∧
      step { idle with ERR := true } = .next { idle with ERR := true } := ⟨rfl, rfl, rfl⟩

theorem witness_ErrIsStickyAndStopsNothing_same : (Instr.rdl .p 15).wellFormed = true ∧ Instr.rdl .p 15 ≠ .rdl .st 0 := by
  decide

theorem witness_ErrIsStickyAndStopsNothing_legal :
    (issued [.command 0x22000000 0, .reset, .command 0x02000300 0]).ERR = false ∧
      AllLegal (issued [.command 0x22000000 0, .reset, .command 0x02000300 0]) := by
  refine ⟨rfl, fun cmd wdata h => ?_⟩
  simp only [issued, List.mem_cons, HostEvent.command.injEq, reduceCtorEq, List.not_mem_nil, or_false, false_or] at h
  rcases h with ⟨rfl, -⟩ | ⟨rfl, -⟩ <;> decide

theorem witness_FlagsWrittenByNamedCommandsOnly :
    (Instr.rdl .a 0).wellFormed = true ∧ exec (.rdl .a 0) idle = .next (idle.answer (idle.readLimb .a 0)) := ⟨rfl, rfl⟩

theorem witness_OperandsPersist :
    exec (.rdl .a 0) idle = .next (idle.answer (idle.readLimb .a 0)) ∧
      ((∃ n, Instr.rdl .a 0 = .add n) ∨ ∃ reg idx, Instr.rdl .a 0 = .rdl reg idx) := ⟨rfl, .inr ⟨.a, 0, rfl⟩⟩

theorem witness_WdataMattersToWrlOnly : ∀ reg idx, Instr.mulk ≠ .wrl reg idx := by
  intro reg idx h
  cases h

theorem witness_StepKeepsKbClear :
    NoDefect State.reset ∧ step State.reset = .next State.reset := ⟨rfl, rfl⟩

/-- The boundary limbs of each register, and a location that differs in the register only and in the index only. -/
theorem witness_WrlWritesExactlyOneLimb :
    Reg.a.writableAt 0 = true ∧ Reg.a.writableAt 7 = true ∧ Reg.b.writableAt 7 = true ∧ Reg.p.writableAt 15 = true ∧
      (Reg.b ≠ Reg.a ∨ 7 ≠ 7) ∧ (Reg.a ≠ Reg.a ∨ 6 ≠ 7) := by
  decide

theorem witness_RdlAnswersAndChangesNothing : 0 < 8 ∧ 7 < 8 ∧ 15 < 16 := by decide

theorem witness_StatusBits : 4 ≤ 4 ∧ 4 ≤ 31 := by decide

theorem witness_WrittenLimbReadsBack : Reg.a.writableAt 3 = true ∧ Reg.p.writableAt 15 = true := by decide

theorem witness_WritesToDifferentLimbsCommute :
    Reg.a.writableAt 7 = true ∧ Reg.b.writableAt 7 = true ∧ (Reg.a ≠ Reg.b ∨ 7 ≠ 7) := by
  decide

theorem witness_AddResult : 1 ≤ 1 ∧ 1 ≤ 8 ∧ 1 ≤ 8 ∧ 8 ≤ 8 := by decide

/-- The smallest window at the top limb and the whole of `P` (V-DEC-12, V-DEC-13). -/
theorem witness_AddxResult : (1 ≤ 1 ∧ 1 ≤ 8 ∧ 1 ≤ 1 ∧ 15 + 1 ≤ 16) ∧ 1 ≤ 8 ∧ 8 ≤ 8 ∧ 8 ≤ 16 ∧ 0 + 16 ≤ 16 := by decide

theorem witness_SubResult : 1 ≤ 1 ∧ 1 ≤ 8 ∧ 1 ≤ 8 ∧ 8 ≤ 8 := by decide

/-- Operands of eight limbs, for the statements about the Karatsuba steps. -/
theorem witness_CrossTermNeverBorrows : (ones 8).length = 8 ∧ (zeros 8).length = 8 := by decide

theorem witness_RecombinationIsExact : (ones 8).length = 8 ∧ (zeros 8).length = 8 := by decide

theorem witness_KaratsubaEqualsSchoolbook :
    (ones 8).length = 8 ∧ idle.A = { idle with P := regOf 16 [1] }.A ∧ idle.B = { idle with P := regOf 16 [1] }.B :=
  ⟨rfl, rfl, rfl⟩

theorem witness_EndAroundRunsAtMostOnce : (ones 16).length = 16 ∧ (foldHalves (ones 16)).2 = true := by decide

theorem witness_ResidueRangeAndCongruence : (zeros 16).length = 16 ∧ (ones 16).length = 16 := by decide

/-- An input of neither special kind: the value 1. -/
theorem witness_SpecialResidues :
    ((1 : Limb) :: zeros 15).length = 16 ∧ (1 : Limb) :: zeros 15 ≠ zeros 16 ∧
      ¬(0 < val ((1 : Limb) :: zeros 15) ∧ val ((1 : Limb) :: zeros 15) % Config.modulus = 0) := by
  decide +kernel

theorem witness_ReductionIsIdempotent :
    (ones 8 ++ zeros 8).length = 16 ∧ (ones 8 ++ zeros 8).drop 8 = zeros 8 := by
  decide

theorem witness_MultiplyThenReduce :
    (Instr.mulk = .mulk ∨ Instr.mulk = .muls8) ∧ (Instr.muls8 = .mulk ∨ Instr.muls8 = .muls8) := by
  decide

end Sys2Proof.Tests
end

/-! Proofs of the state family: the effect of a command and the cases of a step said once, then the flags, `STATUS`,
the Karatsuba borrows and the agreement of runs from equal items. -/

namespace Sys2Proof.Machine

/-! ### What a command does -/

/-- The next state a command gives when its operands are in range; `exec_eq_whenLegal` ties it to `exec`. -/
def legalEffect (i : Instr) (s : State) : State :=
  match i with
  | .wrl reg idx => (s.writeLimb reg idx s.wdata).answerUnspecified
  | .rdl reg idx => s.answer (s.readLimb reg idx)
  | .add n =>
    let r := addAssign (s.sourceA n) (s.sourceB n)
    ((s.setA 0 r.1).setCF r.2).answerUnspecified
  | .addx off m n =>
    let r := addAssignExtended (s.windowP off m) (s.sourceA n)
    ((s.setP off r.1).setCF r.2).answerUnspecified
  | .sub n =>
    let r := subLimbs (s.sourceA n) (s.sourceB n)
    ((s.setP 0 r.1).setBF r.2).answerUnspecified
  | .muls4 => (s.setP 0 (mulSchool (s.sourceA 4) (s.sourceB 4))).answerUnspecified
  | .muls8 => (s.setP 0 (mulSchool (s.sourceA 8) (s.sourceB 8))).answerUnspecified
  | .mulk =>
    let r := mulKaratsuba (s.sourceA 8) (s.sourceB 8)
    ((s.setP 0 r.1).setKB r.2).answerUnspecified
  | .red256 => (s.setP 0 (reduce256 (s.windowP 0 16))).answerUnspecified

/-- Every arm of the dispatch is its effect under the legality guard; the four bare commands are always legal. -/
theorem exec_eq_whenLegal (i : Instr) (s : State) : exec i s = whenLegal i s (legalEffect i s) := by
  cases i <;> rfl

theorem exec_of_wellFormed {i : Instr} (s : State) (h : i.wellFormed = true) :
    exec i s = .next (legalEffect i s) := by
  rw [exec_eq_whenLegal, whenLegal_of_wellFormed s _ h]

theorem exec_of_not_wellFormed {i : Instr} (s : State) (h : i.wellFormed = false) :
    exec i s = .next s.raiseIllegalCommand := by
  rw [exec_eq_whenLegal, whenLegal_of_not_wellFormed s _ h]

/-- A command answers a next state: the one its effect gives, or the one `IllegalCommand` gives. -/
theorem exec_cases {i : Instr} {s t : State} (h : exec i s = .next t) :
    (i.wellFormed = true ∧ t = legalEffect i s) ∨ (i.wellFormed = false ∧ t = s.raiseIllegalCommand) := by
  cases hi : i.wellFormed with
  | true => rw [exec_of_wellFormed s hi] at h; cases h; exact .inl ⟨rfl, rfl⟩
  | false => rw [exec_of_not_wellFormed s hi] at h; cases h; exact .inr ⟨rfl, rfl⟩

/-! ### The frame of a command's effect on the flags and on what is issued -/

@[simp] theorem legalEffect_pending (i : Instr) (s : State) : (legalEffect i s).pending = s.pending := by
  cases i <;> simp [legalEffect]

@[simp] theorem legalEffect_ERR (i : Instr) (s : State) : (legalEffect i s).ERR = s.ERR := by
  cases i <;> simp [legalEffect]

theorem legalEffect_CF (i : Instr) (s : State) :
    (legalEffect i s).CF = s.CF ∨ (∃ n, i = .add n) ∨ ∃ off m n, i = .addx off m n := by
  cases i <;> simp [legalEffect]

theorem legalEffect_BF (i : Instr) (s : State) : (legalEffect i s).BF = s.BF ∨ ∃ n, i = .sub n := by
  cases i <;> simp [legalEffect]

theorem legalEffect_KB (i : Instr) (s : State) : (legalEffect i s).KB = s.KB ∨ i = .mulk := by
  cases i <;> simp [legalEffect]

/-! ### What a step does -/

theorem step_of_idle {s : State} (h : s.pending = []) : step s = .next s := by
  rw [step, takeEvent_nil h]

theorem step_of_reset {s : State} {rest : List HostEvent} (h : s.pending = .reset :: rest) :
    step s = .next { s with pending := rest }.applyReset := by
  rw [step, takeEvent_cons h]

theorem step_of_decode_ok {s : State} {cmd : CmdWord} {wdata : Limb} {rest : List HostEvent} {i : Instr}
    (h : s.pending = .command cmd wdata :: rest) (hd : decode cmd = .ok i) :
    step s = exec i { s with pending := rest, wdata := wdata } := by
  simp only [step, takeEvent_cons h, hd, State.latchWdata]

theorem step_of_decode_error {s : State} {cmd : CmdWord} {wdata : Limb} {rest : List HostEvent} {e : DecodeError}
    (h : s.pending = .command cmd wdata :: rest) (hd : decode cmd = .error e) :
    step s = .next { s with pending := rest, wdata := wdata }.raiseIllegalCommand := by
  simp only [step, takeEvent_cons h, hd, State.latchWdata]

/-! ### The Karatsuba datapath never borrows (R106) -/

/-- The low limbs have the whole value when it is below their bound: the limbs beyond it are 0. -/
theorem val_take_of_lt {xs : List Limb} {n : Nat} (h : val xs < Config.radix ^ n) : val (xs.take n) = val xs := by
  rcases Nat.le_total xs.length n with hn | hn
  · rw [List.take_of_length_le hn]
  · have hsplit := val_append (xs.take n) (xs.drop n)
    rw [List.take_append_drop, List.length_take_of_le hn] at hsplit
    have hdrop : val (xs.drop n) = 0 := by
      by_contra hne
      have := Nat.le_mul_of_pos_right (Config.radix ^ n) (Nat.pos_of_ne_zero hne)
      omega
    rw [hsplit, hdrop, Nat.mul_zero, Nat.add_zero]

theorem val_append_zeros (xs : List Limb) (n : Nat) : val (xs ++ zeros n) = val xs := by
  rw [val_append, val_zeros, Nat.mul_zero, Nat.add_zero]

/-- R78 where nothing is borrowed: the difference is that of the values. -/
theorem subLimbs_of_le {x y : List Limb} (hlen : x.length = y.length) (hle : val y ≤ val x) :
    (subLimbs x y).2 = false ∧ val (subLimbs x y).1 + val y = val x := by
  have hbw : (subLimbs x y).2 = false := by
    rw [subLimbs_borrow hlen, decide_eq_false_iff_not, Nat.not_lt]
    exact hle
  have hv := subLimbs_val hlen
  rw [hbw] at hv
  exact ⟨hbw, by simpa using hv⟩

theorem val_lowHalf_lt {a : List Limb} (h : a.length = 8) : val (lowHalf a) < Config.radix ^ 4 := by
  simpa only [lowHalf_length h] using val_lt (lowHalf a)

theorem val_highHalf_lt {a : List Limb} (h : a.length = 8) : val (highHalf a) < Config.radix ^ 4 := by
  simpa only [highHalf_length h] using val_lt (highHalf a)

section
variable {a b : List Limb} (ha : a.length = 8) (hb : b.length = 8)
include ha hb

/-- R104: the cross product is the product of the half-sums. -/
theorem crossProduct_val :
    val (crossProduct a b) = (val (lowHalf a) + val (highHalf a)) * (val (lowHalf b) + val (highHalf b)) := by
  rw [crossProduct, mulSchool_val, widenedHalfSum_val ha, widenedHalfSum_val hb]

/-- Two half-sums are below `2·B^4` each, so the cross product fits the 12 limbs of R105. -/
theorem crossProduct_lt : val (crossProduct a b) < Config.radix ^ 12 := by
  have ha0 := val_lowHalf_lt ha
  have ha1 := val_highHalf_lt ha
  have hb0 := val_lowHalf_lt hb
  have hb1 := val_highHalf_lt hb
  calc val (crossProduct a b)
      = (val (lowHalf a) + val (highHalf a)) * (val (lowHalf b) + val (highHalf b)) := crossProduct_val ha hb
    _ ≤ (2 * Config.radix ^ 4) * (2 * Config.radix ^ 4) := Nat.mul_le_mul (by omega) (by omega)
    _ < Config.radix ^ 12 := by decide

/-- The first subtraction of R105 never borrows: the cross product has `z0` among its four terms. -/
theorem crossLessLow_exact : (crossLessLow a b).2 = false ∧
    val (crossLessLow a b).1 + val (lowHalf a) * val (lowHalf b) = val (crossProduct a b) := by
  have hx : val ((crossProduct a b).take Config.crossLimbs) = val (crossProduct a b) :=
    val_take_of_lt (crossProduct_lt ha hb)
  have hz : val (lowProduct a b ++ zeros (Config.crossLimbs - Config.operandLimbs))
      = val (lowHalf a) * val (lowHalf b) := by
    rw [val_append_zeros, lowProduct, mulSchool_val]
  rw [← hx, ← hz]
  refine subLimbs_of_le (by simp [crossProduct_length ha hb, lowProduct_length ha hb]) ?_
  rw [hx, hz, crossProduct_val ha hb]
  exact Nat.mul_le_mul (Nat.le_add_right _ _) (Nat.le_add_right _ _)

/-- The second subtraction of R105 never borrows either: `z2` is still among the terms of `t1`, and what is left is
`a0·b1 + a1·b0`. -/
theorem crossTerm_exact : (crossTerm a b).2 = false ∧
    val (crossTerm a b).1 = val (lowHalf a) * val (highHalf b) + val (highHalf a) * val (lowHalf b) := by
  have ht1 : val (crossLessLow a b).1 = val (lowHalf a) * val (highHalf b) + val (highHalf a) * val (lowHalf b)
      + val (highHalf a) * val (highHalf b) := by
    have h := (crossLessLow_exact ha hb).2
    rw [crossProduct_val ha hb] at h
    linear_combination h
  have hz : val (highProduct a b ++ zeros (Config.crossLimbs - Config.operandLimbs))
      = val (highHalf a) * val (highHalf b) := by
    rw [val_append_zeros, highProduct, mulSchool_val]
  have hlen : (crossLessLow a b).1.length
      = (highProduct a b ++ zeros (Config.crossLimbs - Config.operandLimbs)).length := by
    simp [crossLessLow_length ha hb, highProduct_length ha hb]
  obtain ⟨hbw, hv⟩ := subLimbs_of_le hlen (by rw [ht1, hz]; exact Nat.le_add_left _ _)
  rw [hz, ht1] at hv
  exact ⟨hbw, Nat.add_right_cancel hv⟩

/-- R106: `kb = k1 | k2` is 0 for all operands. -/
theorem mulKaratsuba_kb : (mulKaratsuba a b).2 = false := by
  rw [mulKaratsuba, (crossLessLow_exact ha hb).1, (crossTerm_exact ha hb).1, Bool.or_false]

end

/-! ### `KB` -/

theorem legalEffect_mulk_KB (s : State) : (legalEffect .mulk s).KB = false :=
  mulKaratsuba_kb (s.sourceA_length le_rfl) (s.sourceB_length le_rfl)

/-- Settles O25: no borrow is seen, whatever the operands and `KB` were. -/
theorem mulkLeavesKbClear : Obligations.MulkLeavesKbClear := fun s =>
  ⟨_, exec_of_wellFormed s rfl, legalEffect_mulk_KB s⟩

/-- No command sets `KB`: `MULK` clears it and every other command keeps it. -/
theorem exec_keeps_kb_clear {i : Instr} {s t : State} (h : exec i s = .next t) (hs : s.KB = false) :
    t.KB = false := by
  obtain ⟨-, rfl⟩ | ⟨-, rfl⟩ := exec_cases h
  · obtain hkeep | rfl := legalEffect_KB i s
    · rw [hkeep, hs]
    · exact legalEffect_mulk_KB s
  · exact hs

/-- Settles O23, by cases on the event the step accepts. -/
theorem stepKeepsKbClear : Obligations.StepKeepsKbClear := by
  intro s t hs h
  match hp : s.pending with
  | [] =>
    rw [step_of_idle hp] at h
    cases h
    exact hs
  | .reset :: rest =>
    rw [step_of_reset hp] at h
    cases h
    rfl
  | .command cmd wdata :: rest =>
    cases hd : decode cmd with
    | ok i =>
      rw [step_of_decode_ok hp hd] at h
      exact exec_keeps_kb_clear h hs
    | error e =>
      rw [step_of_decode_error hp hd] at h
      cases h
      exact hs

/-- Settles O24: reset gives `KB` the value 0. -/
theorem resetHasKbClear : Obligations.ResetHasKbClear := rfl

/-! ### The flags and `STATUS` -/

/-- Settles O20: a legal command has its effect, and the effect's frame says which flags it keeps. -/
theorem flagsWrittenByNamedCommandsOnly : Obligations.FlagsWrittenByNamedCommandsOnly := by
  intro i s t hi h
  rw [exec_of_wellFormed s hi] at h
  cases h
  exact ⟨legalEffect_CF i s, legalEffect_BF i s, legalEffect_KB i s, legalEffect_ERR i s⟩

/-- The four low bits of `STATUS` are the flags (R26). -/
theorem statusWord_flag_bits (s : State) :
    (statusWord s).getLsbD 0 = s.CF ∧ (statusWord s).getLsbD 1 = s.BF ∧
      (statusWord s).getLsbD 2 = s.KB ∧ (statusWord s).getLsbD 3 = s.ERR := by
  have hbits : ∀ c b k e : Bool, (c.toNat + 2 * b.toNat + 4 * k.toNat + 8 * e.toNat).testBit 0 = c ∧
      (c.toNat + 2 * b.toNat + 4 * k.toNat + 8 * e.toNat).testBit 1 = b ∧
      (c.toNat + 2 * b.toNat + 4 * k.toNat + 8 * e.toNat).testBit 2 = k ∧
      (c.toNat + 2 * b.toNat + 4 * k.toNat + 8 * e.toNat).testBit 3 = e := by decide
  simpa only [← BitVec.testBit_toNat, statusWord_toNat] using hbits s.CF s.BF s.KB s.ERR

/-- Bits 4 and up of `STATUS` are 0: four flags make a number below 16 (R26). -/
theorem statusWord_high_bits (s : State) {k : Nat} (hk : 4 ≤ k) : (statusWord s).getLsbD k = false := by
  have h1 := Bool.toNat_le s.CF
  have h2 := Bool.toNat_le s.BF
  have h3 := Bool.toNat_le s.KB
  have h4 := Bool.toNat_le s.ERR
  have hpow : 2 ^ 4 ≤ 2 ^ k := Nat.pow_le_pow_right (by decide) hk
  rw [← BitVec.testBit_toNat, statusWord_toNat]
  exact Nat.testBit_lt_two_pow (by omega)

/-- Settles O28: `RDL ST, 0` answers `STATUS`; a `WRL` to `ST` is out of range and raises `IllegalCommand`. -/
theorem statusBits : Obligations.StatusBits := by
  intro s
  constructor
  · obtain ⟨hCF, hBF, hKB, hERR⟩ := statusWord_flag_bits s
    exact ⟨_, exec_rdl s rfl, hCF, hBF, hKB, hERR, fun _ => statusWord_high_bits s⟩
  · exact fun idx => ⟨_, exec_of_not_wellFormed s rfl, rfl⟩

/-- With all flags 0 `RDL ST, 0` answers 0. -/
theorem rdl_st_answers_zero {s : State} (hCF : s.CF = false) (hBF : s.BF = false) (hKB : s.KB = false)
    (hERR : s.ERR = false) : ∃ t, exec (.rdl .st 0) s = .next t ∧ t.rdata = 0 := by
  refine ⟨_, exec_rdl s rfl, ?_⟩
  simp [readLimb_st, statusWord, hCF, hBF, hKB, hERR]

/-- The reset event is next exactly when it heads what is issued. -/
theorem pending_of_resetNext {s : State} (h : Safety.resetNext s = true) : ∃ rest, s.pending = .reset :: rest := by
  unfold Safety.resetNext at h
  match hp : s.pending with
  | [] => simp [hp] at h
  | .reset :: rest => exact ⟨rest, rfl⟩
  | .command cmd wdata :: rest => simp [hp] at h

/-- Settles O11: power-on and the reset event both clear the four flags. -/
theorem resetClearsFlags : Obligations.ResetClearsFlags := by
  constructor
  · exact ⟨rfl, rfl, rfl, rfl, rdl_st_answers_zero rfl rfl rfl rfl⟩
  · intro s hs
    obtain ⟨rest, hp⟩ := pending_of_resetNext hs
    obtain ⟨u, hu, hzero⟩ := rdl_st_answers_zero (s := { s with pending := rest }.applyReset) rfl rfl rfl rfl
    exact ⟨_, u, step_of_reset hp, rfl, rfl, rfl, rfl, hu, hzero⟩

/-! ### What a word decodes to is a legal command -/

/-- Format L gives a command in range when the register codes up to `top` are legal for it. -/
theorem decodeLimbAddress_wellFormed {top : Nat} {make : Reg → Nat → Instr} {f2 f1 f0 : Nat} {i : Instr}
    (hmake : ∀ code idx, code ≤ top → idx < regSize code → (make (regOfCode code) idx).wellFormed = true)
    (h : decodeLimbAddress top make f2 f1 f0 = .ok i) : i.wellFormed = true := by
  unfold decodeLimbAddress at h
  split_ifs at h with hzero hrange
  cases h
  exact hmake f1 f0 hrange.1 hrange.2

theorem decodeLength_wellFormed {make : Nat → Instr} {f2 f1 f0 : Nat} {i : Instr}
    (hmake : ∀ n, 1 ≤ n → n ≤ 8 → (make n).wellFormed = true)
    (h : decodeLength make f2 f1 f0 = .ok i) : i.wellFormed = true := by
  unfold decodeLength at h
  split_ifs at h with hzero hrange
  cases h
  exact hmake f0 hrange.1 hrange.2

theorem decodeWindow_wellFormed {f2 f1 f0 : Nat} {i : Instr} (h : decodeWindow f2 f1 f0 = .ok i) :
    i.wellFormed = true := by
  unfold decodeWindow at h
  split_ifs at h with hrange
  cases h
  simp [Instr.wellFormed, hrange]

theorem decodeBare_eq {i j : Instr} {f2 f1 f0 : Nat} (h : decodeBare i f2 f1 f0 = .ok j) : i = j := by
  unfold decodeBare at h
  split_ifs at h
  cases h
  rfl

theorem writableAt_of_code {code idx : Nat} (hc : code ≤ 2) (h : idx < regSize code) :
    (regOfCode code).writableAt idx = true := by
  match code with
  | 0 | 1 | 2 => exact decide_eq_true h
  | n + 3 => omega

theorem readableAt_of_code {code idx : Nat} (hc : code ≤ 3) (h : idx < regSize code) :
    (regOfCode code).readableAt idx = true := by
  match code with
  | 0 | 1 | 2 => exact decide_eq_true h
  | 3 => exact beq_iff_eq.mpr (Nat.lt_one_iff.mp h)
  | n + 4 => omega

/-- R64: the decoder answers commands in range only, format by format. -/
theorem wellFormed_of_decode {cmd : CmdWord} {i : Instr} (h : decode cmd = .ok i) : i.wellFormed = true := by
  unfold decode decodeFields at h
  split at h
  · exact decodeLimbAddress_wellFormed (fun _ _ => writableAt_of_code) h
  · exact decodeLimbAddress_wellFormed (fun _ _ => readableAt_of_code) h
  · exact decodeLength_wellFormed (fun n h1 h8 => by simp [Instr.wellFormed, h1, h8]) h
  · exact decodeWindow_wellFormed h
  · exact decodeLength_wellFormed (fun n h1 h8 => by simp [Instr.wellFormed, h1, h8]) h
  · cases decodeBare_eq h; rfl
  · cases decodeBare_eq h; rfl
  · cases decodeBare_eq h; rfl
  · cases decodeBare_eq h; rfl
  · cases h

/-! ### Runs from equal items (R28) -/

open Safety (SameItems OnlyCommands)

/-- A location reads the same in two states of equal items. -/
theorem readLimb_of_sameItems {s s' : State} (h : SameItems s s') (reg : Reg) (idx : Nat) :
    s.readLimb reg idx = s'.readLimb reg idx := by
  obtain ⟨hA, hB, hP, hCF, hBF, hKB, hERR⟩ := h
  cases reg <;> simp [State.readLimb, statusWord, hA, hB, hP, hCF, hBF, hKB, hERR]

theorem writeLimb_sameItems {s s' : State} (h : SameItems s s') (reg : Reg) (idx : Nat) (v : Limb) :
    SameItems (s.writeLimb reg idx v) (s'.writeLimb reg idx v) := by
  obtain ⟨hA, hB, hP, hCF, hBF, hKB, hERR⟩ := h
  cases reg <;> simp [SameItems, hA, hB, hP, hCF, hBF, hKB, hERR]

/-- The effect of a command on the seven items is a function of them and of the data word. -/
theorem legalEffect_sameItems {s s' : State} (h : SameItems s s') (hw : s.wdata = s'.wdata) (i : Instr) :
    SameItems (legalEffect i s) (legalEffect i s') := by
  cases i with
  | wrl reg idx =>
    rw [legalEffect, legalEffect, hw]
    exact writeLimb_sameItems h reg idx s'.wdata
  | rdl reg idx => exact h
  | add | addx | sub | muls4 | muls8 | mulk | red256 =>
    obtain ⟨hA, hB, hP, hCF, hBF, hKB, hERR⟩ := h
    simp [SameItems, legalEffect, State.sourceA_eq, State.sourceB_eq, State.windowP_eq, hA, hB, hP, hCF, hBF, hKB,
      hERR]

/-- What two runs keep in common: the items of R20 and the commands still to come, none of them a reset event. -/
structure InStep (s s' : State) : Prop where
  items : SameItems s s'
  pending : s.pending = s'.pending
  onlyCommands : OnlyCommands s

/-- Each accepts the same command, and its effect or `IllegalCommand` changes the items alike. -/
theorem InStep.exists_next {s s' : State} (h : InStep s s') :
    ∃ t t', step s = .next t ∧ step s' = .next t' ∧ InStep t t' := by
  obtain ⟨hitems, hpend, honly⟩ := h
  match hp : s.pending with
  | [] => exact ⟨s, s', step_of_idle hp, step_of_idle (hpend.symm.trans hp), hitems, hpend, honly⟩
  | .reset :: rest => simp [OnlyCommands, hp] at honly
  | .command cmd wdata :: rest =>
    have hp' : s'.pending = .command cmd wdata :: rest := hpend.symm.trans hp
    have hrest : HostEvent.reset ∉ rest := fun hmem => honly (hp ▸ List.mem_cons_of_mem _ hmem)
    cases hd : decode cmd with
    | ok i =>
      have hi := wellFormed_of_decode hd
      have haccepted : SameItems { s with pending := rest, wdata := wdata }
          { s' with pending := rest, wdata := wdata } := hitems
      refine ⟨_, _, (step_of_decode_ok hp hd).trans (exec_of_wellFormed _ hi),
        (step_of_decode_ok hp' hd).trans (exec_of_wellFormed _ hi), legalEffect_sameItems haccepted rfl i, ?_, ?_⟩
      · simp
      · simpa [OnlyCommands] using hrest
    | error e =>
      obtain ⟨hA, hB, hP, hCF, hBF, hKB, -⟩ := hitems
      exact ⟨_, _, step_of_decode_error hp hd, step_of_decode_error hp' hd,
        ⟨hA, hB, hP, hCF, hBF, hKB, rfl⟩, rfl, hrest⟩

theorem core_run_succ {s t : State} (h : step s = .next t) (k : Nat) : core.run (k + 1) s = core.run k t := by
  have hcore : core.step s = .next t := h
  simp only [Host.Core.run, hcore]

theorem InStep.exists_run (k : Nat) {s s' : State} (h : InStep s s') :
    ∃ t t', core.run k s = .next t ∧ core.run k s' = .next t' ∧ InStep t t' := by
  induction k generalizing s s' with
  | zero => exact ⟨s, s', rfl, rfl, h⟩
  | succ k ih =>
    obtain ⟨t, t', ht, ht', hnext⟩ := h.exists_next
    rw [core_run_succ ht, core_run_succ ht']
    exact ih hnext

/-- A legal `RDL` that is next in both answers the same word. -/
theorem InStep.rdl_answer {s s' : State} (h : InStep s s') {cmd : CmdWord} {wdata : Limb} {rest : List HostEvent}
    {reg : Reg} {idx : Nat} (hp : s.pending = .command cmd wdata :: rest) (hd : decode cmd = .ok (.rdl reg idx)) :
    ∃ u u', step s = .next u ∧ step s' = .next u' ∧ u.rdata = u'.rdata := by
  have hi := wellFormed_of_decode hd
  exact ⟨_, _, (step_of_decode_ok hp hd).trans (exec_rdl _ hi),
    (step_of_decode_ok (h.pending.symm.trans hp) hd).trans (exec_rdl _ hi), readLimb_of_sameItems h.items reg idx⟩

/-- Settles O16, by induction on the number of steps: the two runs stay in step. -/
theorem sameItemsSameCommandsSameEnd : Obligations.SameItemsSameCommandsSameEnd := by
  intro k s s' hitems hpend honly
  obtain ⟨t, t', ht, ht', hend⟩ := InStep.exists_run k ⟨hitems, hpend, honly⟩
  exact ⟨t, t', ht, ht', hend.items, hend.pending, fun _ _ _ _ _ hp hd => hend.rdl_answer hp hd⟩

end Sys2Proof.Machine

/-! Proofs of the memory family: the effect of an event said once, a run as the fold of these effects, and a limb
written and read back through its command words. -/

namespace Sys2Proof.Machine

/-! ### The accepted event and a run over what is issued (R48) -/

/-- What accepting an event does to the rest of the state: the reset event of R155, the effect of the command the word
decodes to, or `IllegalCommand` (R57, R62). `step_of_pending_cons` ties it to `step`. -/
def eventEffect (e : HostEvent) (s : State) : State :=
  match e with
  | .reset => s.applyReset
  | .command cmd wdata =>
    match decode cmd with
    | .ok i => legalEffect i (s.latchWdata wdata)
    | .error _ => (s.latchWdata wdata).raiseIllegalCommand

theorem eventEffect_of_decode_ok {cmd : CmdWord} {i : Instr} (hd : decode cmd = .ok i) (wdata : Limb) (s : State) :
    eventEffect (.command cmd wdata) s = legalEffect i (s.latchWdata wdata) := by
  simp only [eventEffect, hd]

theorem eventEffect_of_decode_error {cmd : CmdWord} {e : DecodeError} (hd : decode cmd = .error e) (wdata : Limb)
    (s : State) : eventEffect (.command cmd wdata) s = (s.latchWdata wdata).raiseIllegalCommand := by
  simp only [eventEffect, hd]

/-- A step takes the head of what is issued and has its effect. -/
theorem step_of_pending_cons {s : State} {e : HostEvent} {rest : List HostEvent} (h : s.pending = e :: rest) :
    step s = .next (eventEffect e { s with pending := rest }) := by
  cases e with
  | reset => exact step_of_reset h
  | command cmd wdata =>
    cases hd : decode cmd with
    | ok i =>
      rw [step_of_decode_ok h hd, exec_of_wellFormed _ (wellFormed_of_decode hd), eventEffect_of_decode_ok hd]
      rfl
    | error err =>
      rw [step_of_decode_error h hd, eventEffect_of_decode_error hd]
      rfl

/-- No command looks at what is issued after it (R48). -/
theorem legalEffect_with_pending (i : Instr) (s : State) (p : List HostEvent) :
    legalEffect i { s with pending := p } = { legalEffect i s with pending := p } := by
  cases i with
  | wrl reg idx => cases reg <;> rfl
  | rdl reg idx => cases reg <;> rfl
  | add | addx | sub | muls4 | muls8 | mulk | red256 => rfl

/-- No event looks at the events issued after it. -/
theorem eventEffect_with_pending (e : HostEvent) (s : State) (p : List HostEvent) :
    eventEffect e { s with pending := p } = { eventEffect e s with pending := p } := by
  cases e with
  | reset => rfl
  | command cmd wdata =>
    cases hd : decode cmd with
    | ok i =>
      rw [eventEffect_of_decode_ok hd, eventEffect_of_decode_ok hd]
      exact legalEffect_with_pending i (s.latchWdata wdata) p
    | error err =>
      rw [eventEffect_of_decode_error hd, eventEffect_of_decode_error hd]
      rfl

/-- No event changes, adds or drops a later one. -/
@[simp] theorem eventEffect_pending (e : HostEvent) (s : State) : (eventEffect e s).pending = s.pending := by
  have h : eventEffect e s = { eventEffect e s with pending := s.pending } :=
    eventEffect_with_pending e s s.pending
  rw [h]

/-- Settles O14: an idle step has no event to take, and the effect of an event leaves the later ones. -/
theorem stepTakesOneEvent : Obligations.StepTakesOneEvent := by
  intro s t h
  cases hp : s.pending with
  | nil =>
    rw [step_of_idle hp] at h
    cases h
    exact hp
  | cons e rest =>
    rw [step_of_pending_cons hp] at h
    cases h
    exact eventEffect_pending e _

/-- Running all that is issued folds the events' effects over it. -/
theorem core_run_eq_foldl {events : List HostEvent} {s : State} (h : s.pending = events) :
    core.run events.length s =
      .next (List.foldl (α := State) (fun t e => eventEffect e t) { s with pending := [] } events) := by
  induction events generalizing s with
  | nil =>
    have hs : ({ s with pending := [] } : State) = s := by rw [← h]
    rw [hs]
    rfl
  | cons e rest ih =>
    have hhead : ({ eventEffect e { s with pending := rest } with pending := [] } : State)
        = eventEffect e { s with pending := [] } :=
      (eventEffect_with_pending e { s with pending := rest } []).symm
    rw [List.length_cons, core_run_succ (step_of_pending_cons h), ih (eventEffect_pending e _), hhead, List.foldl_cons]

/-- Settles O15: the function is the effect of an event. -/
theorem runIsFoldOfEvents : Obligations.RunIsFoldOfEvents := ⟨eventEffect, fun _ => core_run_eq_foldl rfl⟩

/-! ### A limb written and read back (R46, R48) -/

/-- The decoder sees the fields a word was packed from (R58). -/
theorem decode_packFields {op f2 f1 f0 : Nat} (h : op < 256) (h2 : f2 < 256) (h1 : f1 < 256) (h0 : f0 < 256) :
    decode (packFields op f2 f1 f0) = decodeFields op f2 f1 f0 := by
  obtain ⟨hop, hf2, hf1, hf0⟩ := fieldAt_packFields h h2 h1 h0
  rw [decode, hop, hf2, hf1, hf0]

theorem regOfCode_regCode (reg : Reg) : regOfCode (regCode reg) = reg := by cases reg <;> rfl

/-- The readable locations are the indices below the register's size (R40). -/
theorem readableAt_iff_lt_regSize {reg : Reg} {idx : Nat} :
    reg.readableAt idx = true ↔ idx < regSize (regCode reg) := by
  cases reg <;> simp [Reg.readableAt, regSize, regCode]

/-- Every location but `STATUS` that can be read can be written, and no other (R40). -/
theorem writableAt_iff {reg : Reg} {idx : Nat} :
    reg.writableAt idx = true ↔ reg.readableAt idx = true ∧ regCode reg ≤ 2 := by
  cases reg <;> simp [Reg.writableAt, Reg.readableAt, regCode]

/-- Format L reads the location back from its code and index. -/
theorem decodeLimbAddress_regCode {top : Nat} {reg : Reg} {idx : Nat} (make : Reg → Nat → Instr)
    (htop : regCode reg ≤ top) (h : reg.readableAt idx = true) :
    decodeLimbAddress top make 0 (regCode reg) idx = .ok (make reg idx) := by
  simp [decodeLimbAddress, htop, readableAt_iff_lt_regSize.mp h, regOfCode_regCode]

theorem decode_encode_wrl {reg : Reg} {idx : Nat} (h : reg.writableAt idx = true) :
    decode (encode (.wrl reg idx)) = .ok (.wrl reg idx) := by
  obtain ⟨hread, hcode⟩ := writableAt_iff.mp h
  have hidx := Laws.Encoding.readableAt_lt hread
  rw [encode, decode_packFields (by decide) (by decide) (by omega) (by omega)]
  exact decodeLimbAddress_regCode .wrl hcode hread

theorem decode_encode_rdl {reg : Reg} {idx : Nat} (h : reg.readableAt idx = true) :
    decode (encode (.rdl reg idx)) = .ok (.rdl reg idx) := by
  have hidx := Laws.Encoding.readableAt_lt h
  have hcode := Laws.Encoding.regCode_lt reg
  rw [encode, decode_packFields (by decide) (by decide) (by omega) (by omega)]
  exact decodeLimbAddress_regCode .rdl (Nat.le_of_lt_succ hcode) h

/-- A written location reads the new value; `STATUS` is not writable. -/
theorem readLimb_writeLimb_same {reg : Reg} {idx : Nat} (s : State) (v : Limb) (h : reg.writableAt idx = true) :
    (s.writeLimb reg idx v).readLimb reg idx = v := by
  cases reg with
  | a | b | p =>
    exact (setSlice_one_getD _ idx v (of_decide_eq_true h) idx).trans (if_pos rfl)
  | st => cases h

/-- The answer word is not in the limb address space. -/
@[simp] theorem readLimb_answerUnspecified (s : State) (reg : Reg) (idx : Nat) :
    s.answerUnspecified.readLimb reg idx = s.readLimb reg idx := by cases reg <;> rfl

/-- Neither is the data word. -/
@[simp] theorem readLimb_latchWdata (s : State) (wdata : Limb) (reg : Reg) (idx : Nat) :
    (s.latchWdata wdata).readLimb reg idx = s.readLimb reg idx := by cases reg <;> rfl

/-- A read of the location just written answers the written word, whatever data word comes with it. -/
theorem legalEffect_rdl_after_wrl {reg : Reg} {idx : Nat} (s : State) (v w : Limb) (h : reg.writableAt idx = true) :
    (legalEffect (.rdl reg idx) ((legalEffect (.wrl reg idx) (s.latchWdata v)).latchWdata w)).rdata = v := by
  calc (legalEffect (.rdl reg idx) ((legalEffect (.wrl reg idx) (s.latchWdata v)).latchWdata w)).rdata
      = ((legalEffect (.wrl reg idx) (s.latchWdata v)).latchWdata w).readLimb reg idx := rfl
    _ = ((s.latchWdata v).writeLimb reg idx v).readLimb reg idx := by
        rw [readLimb_latchWdata, legalEffect, readLimb_answerUnspecified, State.latchWdata_wdata]
    _ = v := readLimb_writeLimb_same _ v h

/-- Settles O29: the two words decode to the write and the read, and the run folds their effects. -/
theorem writtenLimbReadsBack : Obligations.WrittenLimbReadsBack := by
  intro reg idx s v w h
  have hread : reg.readableAt idx = true := (writableAt_iff.mp h).1
  refine ⟨_, core_run_eq_foldl (events := [.command (encode (.wrl reg idx)) v, .command (encode (.rdl reg idx)) w])
    rfl, ?_⟩
  rw [List.foldl_cons, List.foldl_cons, List.foldl_nil, eventEffect_of_decode_ok (decode_encode_wrl h),
    eventEffect_of_decode_ok (decode_encode_rdl hread)]
  exact legalEffect_rdl_after_wrl _ v w h

end Sys2Proof.Machine

/-! Proofs of the encoding family: decode and encode undo each other, the decoder against the rows of the opcode table,
the list of the legal words, and what the step makes of a legal and of an illegal word. -/

namespace Sys2Proof.Machine

open Safety (TableRow isLegalWord)
open Laws.Encoding (opcode)

/-! ### Decoding what was encoded (R64) -/

/-- Format N reads a length in range back. -/
theorem decodeLength_of_range (make : Nat → Instr) {n : Nat} (h : 1 ≤ n ∧ n ≤ 8) :
    decodeLength make 0 0 n = .ok (make n) := by
  simp [decodeLength, h]

/-- Format X reads a window in range back. -/
theorem decodeWindow_of_range {off m n : Nat} (h : 1 ≤ n ∧ n ≤ 8 ∧ n ≤ m ∧ off + m ≤ 16) :
    decodeWindow off m n = .ok (.addx off m n) := by
  simp [decodeWindow, h]

theorem wellFormed_add_iff {n : Nat} : (Instr.add n).wellFormed = true ↔ 1 ≤ n ∧ n ≤ 8 := by
  simp [Instr.wellFormed]

theorem wellFormed_sub_iff {n : Nat} : (Instr.sub n).wellFormed = true ↔ 1 ≤ n ∧ n ≤ 8 := by
  simp [Instr.wellFormed]

theorem wellFormed_addx_iff {off m n : Nat} :
    (Instr.addx off m n).wellFormed = true ↔ 1 ≤ n ∧ n ≤ 8 ∧ n ≤ m ∧ off + m ≤ 16 := by
  simp [Instr.wellFormed, and_assoc]

theorem decode_encode_add {n : Nat} (h : 1 ≤ n ∧ n ≤ 8) : decode (encode (.add n)) = .ok (.add n) := by
  rw [encode, decode_packFields (by decide) (by decide) (by decide) (by omega)]
  exact decodeLength_of_range .add h

theorem decode_encode_sub {n : Nat} (h : 1 ≤ n ∧ n ≤ 8) : decode (encode (.sub n)) = .ok (.sub n) := by
  rw [encode, decode_packFields (by decide) (by decide) (by decide) (by omega)]
  exact decodeLength_of_range .sub h

theorem decode_encode_addx {off m n : Nat} (h : 1 ≤ n ∧ n ≤ 8 ∧ n ≤ m ∧ off + m ≤ 16) :
    decode (encode (.addx off m n)) = .ok (.addx off m n) := by
  rw [encode, decode_packFields (by decide) (by omega) (by omega) (by omega)]
  exact decodeWindow_of_range h

/-- Settles O1, one command at a time: the operands of a legal command fit their fields, and its format reads them
back. -/
theorem encodeThenDecode : Obligations.EncodeThenDecode := by
  intro i h
  cases i with
  | wrl reg idx => exact decode_encode_wrl h
  | rdl reg idx => exact decode_encode_rdl h
  | add n => exact decode_encode_add (wellFormed_add_iff.mp h)
  | addx off m n => exact decode_encode_addx (wellFormed_addx_iff.mp h)
  | sub n => exact decode_encode_sub (wellFormed_sub_iff.mp h)
  | muls4 | muls8 | mulk | red256 => rfl

/-! ### The rows of the opcode table (R61) -/

/-- Format L accepts the codes up to `top` with the indices of their register. -/
theorem decodeLimbAddress_eq_ok {top : Nat} {make : Reg → Nat → Instr} {f2 f1 f0 : Nat} {i : Instr}
    (h : decodeLimbAddress top make f2 f1 f0 = .ok i) :
    f2 = 0 ∧ f1 ≤ top ∧ f0 < regSize f1 ∧ i = make (regOfCode f1) f0 := by
  unfold decodeLimbAddress at h
  split_ifs at h with hzero hrange
  cases h
  exact ⟨not_not.mp hzero, hrange.1, hrange.2, rfl⟩

/-- Format N accepts the lengths 1 to 8. -/
theorem decodeLength_eq_ok {make : Nat → Instr} {f2 f1 f0 : Nat} {i : Instr}
    (h : decodeLength make f2 f1 f0 = .ok i) : f2 = 0 ∧ f1 = 0 ∧ 1 ≤ f0 ∧ f0 ≤ 8 ∧ i = make f0 := by
  unfold decodeLength at h
  split_ifs at h with hzero hrange
  cases h
  obtain ⟨h2, h1⟩ := not_or.mp hzero
  exact ⟨not_not.mp h2, not_not.mp h1, hrange.1, hrange.2, rfl⟩

/-- Format Z accepts zero fields only. -/
theorem decodeBare_eq_ok {i j : Instr} {f2 f1 f0 : Nat} (h : decodeBare i f2 f1 f0 = .ok j) :
    (f2 = 0 ∧ f1 = 0 ∧ f0 = 0) ∧ j = i := by
  unfold decodeBare at h
  split_ifs at h with hzero
  cases h
  exact ⟨hzero, rfl⟩

theorem tableRow_wrl_of_code {code idx : Nat} (hc : code ≤ 2) (h : idx < regSize code) :
    TableRow (.wrl (regOfCode code) idx) 0x01 0 code idx := by
  match code with
  | 0 | 1 | 2 => simpa [TableRow, regOfCode, regSize, Nat.lt_succ_iff] using h
  | n + 3 => omega

theorem tableRow_rdl_of_code {code idx : Nat} (hc : code ≤ 3) (h : idx < regSize code) :
    TableRow (.rdl (regOfCode code) idx) 0x02 0 code idx := by
  match code with
  | 0 | 1 | 2 | 3 => simpa [TableRow, regOfCode, regSize, Nat.lt_succ_iff] using h
  | n + 4 => omega

/-- What the decoder accepts stands in its row of the table, format by format. -/
theorem tableRow_of_decodeFields {op f2 f1 f0 : Nat} {i : Instr} (h : decodeFields op f2 f1 f0 = .ok i) :
    TableRow i op f2 f1 f0 := by
  unfold decodeFields at h
  split at h
  · obtain ⟨rfl, hcode, hidx, rfl⟩ := decodeLimbAddress_eq_ok h
    exact tableRow_wrl_of_code hcode hidx
  · obtain ⟨rfl, hcode, hidx, rfl⟩ := decodeLimbAddress_eq_ok h
    exact tableRow_rdl_of_code hcode hidx
  · obtain ⟨rfl, rfl, h1, h8, rfl⟩ := decodeLength_eq_ok h
    exact ⟨rfl, rfl, rfl, rfl, h1, h8⟩
  · unfold decodeWindow at h
    split_ifs at h with hrange
    cases h
    exact ⟨rfl, rfl, rfl, rfl, hrange⟩
  · obtain ⟨rfl, rfl, h1, h8, rfl⟩ := decodeLength_eq_ok h
    exact ⟨rfl, rfl, rfl, rfl, h1, h8⟩
  · obtain ⟨hzero, rfl⟩ := decodeBare_eq_ok h
    exact ⟨rfl, hzero⟩
  · obtain ⟨hzero, rfl⟩ := decodeBare_eq_ok h
    exact ⟨rfl, hzero⟩
  · obtain ⟨hzero, rfl⟩ := decodeBare_eq_ok h
    exact ⟨rfl, hzero⟩
  · obtain ⟨hzero, rfl⟩ := decodeBare_eq_ok h
    exact ⟨rfl, hzero⟩
  · cases h

/-- The row's legality condition is the command's. -/
theorem wellFormed_of_tableRow {i : Instr} {op f2 f1 f0 : Nat} (h : TableRow i op f2 f1 f0) :
    i.wellFormed = true := by
  cases i with
  | wrl reg idx =>
    obtain ⟨-, -, -, ⟨rfl, -, hidx⟩ | ⟨rfl, -, hidx⟩ | ⟨rfl, -, hidx⟩⟩ := h <;>
      exact decide_eq_true (Nat.lt_succ_of_le hidx)
  | rdl reg idx =>
    obtain ⟨-, -, -, ⟨rfl, -, hidx⟩ | ⟨rfl, -, hidx⟩ | ⟨rfl, -, hidx⟩ | ⟨rfl, -, rfl⟩⟩ := h
    · exact decide_eq_true (Nat.lt_succ_of_le hidx)
    · exact decide_eq_true (Nat.lt_succ_of_le hidx)
    · exact decide_eq_true (Nat.lt_succ_of_le hidx)
    · rfl
  | add n =>
    obtain ⟨-, -, -, -, hrange⟩ := h
    exact wellFormed_add_iff.mpr hrange
  | addx off m n =>
    obtain ⟨-, -, -, -, hrange⟩ := h
    exact wellFormed_addx_iff.mpr hrange
  | sub n =>
    obtain ⟨-, -, -, -, hrange⟩ := h
    exact wellFormed_sub_iff.mpr hrange
  | muls4 | muls8 | mulk | red256 => rfl

/-- The row's fields are those that `encode` packs. -/
theorem encode_of_tableRow {i : Instr} {op f2 f1 f0 : Nat} (h : TableRow i op f2 f1 f0) :
    encode i = packFields op f2 f1 f0 := by
  cases i with
  | wrl reg idx =>
    obtain ⟨rfl, rfl, rfl, ⟨rfl, rfl, -⟩ | ⟨rfl, rfl, -⟩ | ⟨rfl, rfl, -⟩⟩ := h <;> rfl
  | rdl reg idx =>
    obtain ⟨rfl, rfl, rfl, ⟨rfl, rfl, -⟩ | ⟨rfl, rfl, -⟩ | ⟨rfl, rfl, -⟩ | ⟨rfl, rfl, -⟩⟩ := h <;> rfl
  | add | sub | addx =>
    obtain ⟨rfl, rfl, rfl, rfl, -⟩ := h
    rfl
  | muls4 | muls8 | mulk | red256 =>
    obtain ⟨rfl, rfl, rfl, rfl⟩ := h
    rfl

/-- Settles O2: the row that the decoder used has the word's own fields. -/
theorem decodeThenEncode : Obligations.DecodeThenEncode := fun cmd _ h =>
  ⟨wellFormed_of_decode h, (encode_of_tableRow (tableRow_of_decodeFields h)).trans (packFields_fieldAt cmd)⟩

/-- Settles O3: the decoder keeps to the rows, and a row's command is the one its word was encoded from. -/
theorem wordIsCommandByItsTableRow : Obligations.WordIsCommandByItsTableRow := by
  intro cmd i
  constructor
  · exact tableRow_of_decodeFields
  · intro h
    have hcmd : encode i = cmd := (encode_of_tableRow h).trans (packFields_fieldAt cmd)
    rw [← hcmd]
    exact encodeThenDecode i (wellFormed_of_tableRow h)

/-! ### The legal words, counted (R61) -/

/-- A legal word is the word of a legal command (R64). -/
theorem isLegalWord_iff {cmd : CmdWord} :
    isLegalWord cmd = true ↔ ∃ i : Instr, i.wellFormed = true ∧ encode i = cmd := by
  constructor
  · intro h
    cases hd : decode cmd with
    | ok i => exact ⟨i, decodeThenEncode cmd i hd⟩
    | error e => simp [isLegalWord, hd] at h
  · rintro ⟨i, hi, rfl⟩
    simp [isLegalWord, encodeThenDecode i hi]

/-- The locations of the limb address space in these registers (R40). -/
def locations (regs : List Reg) : List (Σ _ : Reg, Nat) := regs.sigma fun reg => List.range (regSize (regCode reg))

/-- The legal operands of `ADDX`, as `n`, `m`, `off`: a source of 1 to 8 limbs, a window no shorter, and the places of
that window in `P` (R61). -/
def addxWindows : List (Σ _ : Nat, Σ _ : Nat, Nat) :=
  (List.range' 1 8).sigma fun n => (List.range' n (17 - n)).sigma fun m => List.range (17 - m)

/-- The opcodes of R61's table. -/
def opcodes : List Nat := [0x01, 0x02, 0x10, 0x11, 0x12, 0x20, 0x21, 0x22, 0x30]

/-- The legal commands of one opcode; `mem_legalRow_opcode` ties the row to `wellFormed`. -/
def legalRow : Nat → List Instr
  | 0x01 => (locations [.a, .b, .p]).map fun l => .wrl l.1 l.2
  | 0x02 => (locations [.a, .b, .p, .st]).map fun l => .rdl l.1 l.2
  | 0x10 => (List.range' 1 8).map .add
  | 0x11 => addxWindows.map fun w => .addx w.2.2 w.2.1 w.1
  | 0x12 => (List.range' 1 8).map .sub
  | 0x20 => [.muls4]
  | 0x21 => [.muls8]
  | 0x22 => [.mulk]
  | 0x30 => [.red256]
  | _ => []

/-- The legal commands, row by row. -/
def legalCommands : List Instr := opcodes.flatMap legalRow

theorem mem_locations {regs : List Reg} {reg : Reg} {idx : Nat} :
    ⟨reg, idx⟩ ∈ locations regs ↔ reg ∈ regs ∧ reg.readableAt idx = true := by
  rw [locations, List.mem_sigma, List.mem_range, readableAt_iff_lt_regSize]

theorem mem_addxWindows {off m n : Nat} : ⟨n, m, off⟩ ∈ addxWindows ↔ 1 ≤ n ∧ n ≤ 8 ∧ n ≤ m ∧ off + m ≤ 16 := by
  simp only [addxWindows, List.mem_sigma, List.mem_range'_1, List.mem_range]
  omega

theorem opcode_mem_opcodes (i : Instr) : opcode i ∈ opcodes := by cases i <;> simp [opcode, opcodes]

theorem opcode_of_mem_map {α : Type} {make : α → Instr} {operands : List α} {op : Nat} {i : Instr}
    (hmake : ∀ x, opcode (make x) = op) (h : i ∈ operands.map make) : opcode i = op := by
  obtain ⟨x, -, rfl⟩ := List.mem_map.mp h
  exact hmake x

/-- A row holds commands of its own opcode only. -/
theorem opcode_of_mem_legalRow {i : Instr} {op : Nat} (h : i ∈ legalRow op) : opcode i = op := by
  unfold legalRow at h
  split at h
  · exact opcode_of_mem_map (fun _ => rfl) h
  · exact opcode_of_mem_map (fun _ => rfl) h
  · exact opcode_of_mem_map (fun _ => rfl) h
  · exact opcode_of_mem_map (fun _ => rfl) h
  · exact opcode_of_mem_map (fun _ => rfl) h
  · cases List.mem_singleton.mp h; rfl
  · cases List.mem_singleton.mp h; rfl
  · cases List.mem_singleton.mp h; rfl
  · cases List.mem_singleton.mp h; rfl
  · cases h

/-- The row of a command's opcode holds it exactly if it is legal (R61). -/
theorem mem_legalRow_opcode {i : Instr} : i ∈ legalRow (opcode i) ↔ i.wellFormed = true := by
  cases i with
  | wrl reg idx => cases reg <;> simp [legalRow, opcode, mem_locations, Instr.wellFormed, writableAt_iff, regCode]
  | rdl reg idx => cases reg <;> simp [legalRow, opcode, mem_locations, Instr.wellFormed]
  | add n => simp [legalRow, opcode, wellFormed_add_iff, Nat.lt_succ_iff]
  | addx off m n => simp [legalRow, opcode, wellFormed_addx_iff, mem_addxWindows]
  | sub n => simp [legalRow, opcode, wellFormed_sub_iff, Nat.lt_succ_iff]
  | muls4 | muls8 | mulk | red256 => simp [legalRow, opcode, Instr.wellFormed]

theorem mem_legalCommands {i : Instr} : i ∈ legalCommands ↔ i.wellFormed = true := by
  rw [legalCommands, List.mem_flatMap, ← mem_legalRow_opcode]
  constructor
  · rintro ⟨op, -, h⟩
    rwa [opcode_of_mem_legalRow h]
  · exact fun h => ⟨opcode i, opcode_mem_opcodes i, h⟩

/-- One window of `ADDX` for each `n` of 1 to 8, `m` of `n` to 16 and `off` of 0 to `16 - m`. -/
theorem addxWindows_length : addxWindows.length = 696 := by
  simp only [addxWindows, List.length_sigma, List.length_range]
  rfl

/-- 32 writable and 33 readable locations, 8 lengths twice, 696 windows and the 4 bare commands. -/
theorem legalCommands_length : legalCommands.length = 781 := by
  have hwrite : (locations [.a, .b, .p]).length = 32 := rfl
  have hread : (locations [.a, .b, .p, .st]).length = 33 := rfl
  simp [legalCommands, opcodes, legalRow, addxWindows_length, hwrite, hread]

theorem nodup_locations {regs : List Reg} (h : regs.Nodup) : (locations regs).Nodup :=
  h.sigma fun _ => List.nodup_range

theorem nodup_addxWindows : addxWindows.Nodup :=
  List.Nodup.sigma List.nodup_range' fun _ => List.Nodup.sigma List.nodup_range' fun _ => List.nodup_range

/-- A row lists its operands once. -/
theorem nodup_legalRow (op : Nat) : (legalRow op).Nodup := by
  unfold legalRow
  split
  · exact (nodup_locations (by decide)).map fun ⟨_, _⟩ ⟨_, _⟩ h => by cases h; rfl
  · exact (nodup_locations (by decide)).map fun ⟨_, _⟩ ⟨_, _⟩ h => by cases h; rfl
  · exact List.Nodup.map (fun _ _ => Instr.add.inj) List.nodup_range'
  · exact nodup_addxWindows.map fun ⟨_, _, _⟩ ⟨_, _, _⟩ h => by cases h; rfl
  · exact List.Nodup.map (fun _ _ => Instr.sub.inj) List.nodup_range'
  · exact List.nodup_singleton _
  · exact List.nodup_singleton _
  · exact List.nodup_singleton _
  · exact List.nodup_singleton _
  · exact List.nodup_nil

/-- Two rows have no command in common: their opcodes differ. -/
theorem nodup_legalCommands : legalCommands.Nodup := by
  have hops : opcodes.Nodup := by decide
  refine List.nodup_flatMap.mpr ⟨fun op _ => nodup_legalRow op, hops.imp fun hne i hi hi' => hne ?_⟩
  rw [← opcode_of_mem_legalRow hi, opcode_of_mem_legalRow hi']

/-- The words of two legal commands differ (R64). -/
theorem encode_injOn {i j : Instr} (hi : i.wellFormed = true) (hj : j.wellFormed = true) (h : encode i = encode j) :
    i = j := by
  have hdec : Except.ok (ε := DecodeError) i = .ok j := by
    rw [← encodeThenDecode i hi, ← encodeThenDecode j hj, h]
  exact Except.ok.inj hdec

/-- Settles O5: the list is the words of the legal commands, row by row. -/
theorem legalWordsNumber781 : Obligations.LegalWordsNumber781 := by
  refine ⟨legalCommands.map encode, ?_, ?_, ?_⟩
  · exact nodup_legalCommands.map_on fun i hi j hj =>
      encode_injOn (mem_legalCommands.mp hi) (mem_legalCommands.mp hj)
  · rw [List.length_map, legalCommands_length]
  · intro cmd
    simp only [isLegalWord_iff, List.mem_map, mem_legalCommands]

/-- Settles O4: the words are fixed. -/
theorem sampleWordsDecode : Obligations.SampleWordsDecode :=
  ⟨rfl, rfl, rfl, rfl, rfl, rfl, rfl, rfl, rfl, rfl, rfl, rfl, rfl, rfl⟩

/-! ### What the step makes of a word (R57, R62) -/

/-- Settles O6: the step's own case for a word that decodes. -/
theorem stepRunsDecodedCommand : Obligations.StepRunsDecodedCommand := fun _ _ _ _ _ => step_of_decode_ok

/-- A table word of 32 bits is the word itself (R58). -/
theorem tableWord_toNat (cmd : CmdWord) : tableWord 32 cmd.toNat = cmd := by
  rw [tableWord, Nat.mod_eq_of_lt cmd.isLt, BitVec.ofNat_toNat, BitVec.setWidth_eq]

/-- Settles O7: the word placed decodes to the command it was encoded from, and accepting it gives the state back. -/
theorem issuedCommandRunsNext : Obligations.IssuedCommandRunsNext := by
  intro s i hi
  rw [State.withFetchWord, tableWord_toNat]
  exact step_of_decode_ok rfl (encodeThenDecode i hi)

/-- What the rows of the table have in common, opcode by opcode: the fields of R59 that must be zero, and register
codes of at most 3. -/
theorem tableRow_fields {i : Instr} {op f2 f1 f0 : Nat} (h : TableRow i op f2 f1 f0) :
    op ∈ [0x01, 0x02] ∧ f2 = 0 ∧ f1 ≤ 3 ∨ op ∈ [0x10, 0x12] ∧ f2 = 0 ∧ f1 = 0 ∨ op = 0x11 ∨
      op ∈ [0x20, 0x21, 0x22, 0x30] ∧ f2 = 0 ∧ f1 = 0 ∧ f0 = 0 := by
  cases i with
  | wrl reg idx =>
    obtain ⟨rfl, rfl, -, hcode⟩ := h
    exact .inl ⟨by decide, rfl, by omega⟩
  | rdl reg idx =>
    obtain ⟨rfl, rfl, -, hcode⟩ := h
    exact .inl ⟨by decide, rfl, by omega⟩
  | add | sub =>
    obtain ⟨rfl, rfl, rfl, -⟩ := h
    exact .inr (.inl ⟨by decide, rfl, rfl⟩)
  | addx =>
    obtain ⟨rfl, -⟩ := h
    exact .inr (.inr (.inl rfl))
  | muls4 | muls8 | mulk | red256 =>
    obtain ⟨rfl, hzero⟩ := h
    exact .inr (.inr (.inr ⟨by decide, hzero⟩))

/-- A word that no legal command has is rejected by the decoder (R64). -/
theorem decode_error_of_no_command {cmd : CmdWord} (h : ∀ i : Instr, i.wellFormed = true → encode i ≠ cmd) :
    ∃ e, decode cmd = .error e := by
  cases hd : decode cmd with
  | ok i =>
    obtain ⟨hi, hcmd⟩ := decodeThenEncode cmd i hd
    exact absurd hcmd (h i hi)
  | error e => exact ⟨e, rfl⟩

/-- The fixed words of O8: R62's operand examples, and words of an unlisted opcode or register code. -/
def namedIllegalWords : List CmdWord :=
  [0x00000000, 0xFFFFFFFF, 0x10000000, 0x10000009, 0x12000000, 0x11000400, 0x11001009, 0x11000304, 0x110D0404,
    0x01000008, 0x01000300, 0x02000301, 0x02000210, 0x01000400, 0x0200FF00]

theorem namedIllegalWords_illegal : ∀ cmd ∈ namedIllegalWords, ¬ isLegalWord cmd = true := List.any_eq_false.mp rfl

/-- Settles O8: such a word does not decode, so the step raises `IllegalCommand`; and a word R62 names is in no row. -/
theorem illegalWordOnlySetsErr : Obligations.IllegalWordOnlySetsErr := by
  constructor
  · intro s cmd wdata rest hp hno
    obtain ⟨e, hd⟩ := decode_error_of_no_command hno
    exact ⟨_, step_of_decode_error hp hd, rfl⟩
  · intro cmd hnamed i hi hcmd
    have hrow := (wordIsCommandByItsTableRow cmd i).mp (hcmd ▸ encodeThenDecode i hi)
    have hfields := tableRow_fields hrow
    rcases hnamed with hlisted | hnamed
    · exact namedIllegalWords_illegal cmd hlisted (isLegalWord_iff.mpr ⟨i, hi, hcmd⟩)
    · simp only [List.mem_cons, List.not_mem_nil, or_false] at hfields hnamed
      omega

/-! ### A command term out of range, and the data word -/

/-- Settles O17: the guard raises `IllegalCommand`, which sets `ERR` and answers a free value. -/
theorem operandOutOfRangeRaises : Obligations.OperandOutOfRangeRaises := fun _ s h => exec_of_not_wellFormed s h

/-- Only `WRL` reads the data word, and no command changes it (R57). -/
theorem legalEffect_with_wdata {i : Instr} (h : ∀ reg idx, i ≠ .wrl reg idx) (s : State) (x : Limb) :
    legalEffect i { s with wdata := x } = { legalEffect i s with wdata := x } := by
  cases i with
  | wrl reg idx => exact absurd rfl (h reg idx)
  | rdl reg idx => cases reg <;> rfl
  | add | addx | sub | muls4 | muls8 | mulk | red256 => rfl

/-- Settles O22: neither the command's effect nor `IllegalCommand` depends on the data word. -/
theorem wdataMattersToWrlOnly : Obligations.WdataMattersToWrlOnly := by
  intro i s x h
  cases hi : i.wellFormed with
  | true =>
    refine ⟨_, exec_of_wellFormed s hi, ?_⟩
    rw [exec_of_wellFormed _ hi, legalEffect_with_wdata h]
  | false => exact ⟨_, exec_of_not_wellFormed s hi, exec_of_not_wellFormed _ hi⟩

end Sys2Proof.Machine

/-! Proofs of the limb vector primitives family: what a register holds after a range of it is replaced, and the results of
`ADD`, `ADDX` and `SUB`. -/

namespace Sys2Proof.Machine

/-- A replaced range of `n` limbs: it reads back, and the limbs below and above it are unchanged (R10). -/
theorem slice_setSlice_parts {N lo n : Nat} (v : Limbs N) {u : List Limb} (hu : u.length = n) (h : lo + n ≤ N) :
    slice (setSlice v lo u) lo n = u ∧ slice (setSlice v lo u) 0 lo = slice v 0 lo ∧
      ∀ k, slice (setSlice v lo u) (lo + n) k = slice v (lo + n) k := by
  subst hu
  exact ⟨slice_setSlice_same v lo u h, slice_setSlice_below v lo u h, fun k => slice_setSlice_above v lo u k h⟩

/-- The same for a replaced range that begins at limb 0: nothing is below it. -/
theorem slice_setSlice_low {N n : Nat} (v : Limbs N) {u : List Limb} (hu : u.length = n) (h : n ≤ N) :
    slice (setSlice v 0 u) 0 n = u ∧ ∀ k, slice (setSlice v 0 u) n k = slice v n k := by
  obtain ⟨hsame, -, habove⟩ := slice_setSlice_parts (lo := 0) v hu (by rwa [Nat.zero_add])
  rw [Nat.zero_add] at habove
  exact ⟨hsame, habove⟩

/-- The operands of `ADD` and `SUB` have one length. -/
theorem sourceA_length_eq_sourceB (s : State) {n : Nat} (h : n ≤ 8) : (s.sourceA n).length = (s.sourceB n).length := by
  rw [s.sourceA_length h, s.sourceB_length h]

/-- Settles O31: `add_assign` is exact on `A[0..n)` and `B[0..n)` (R76), and its sum replaces `A[0..n)` only. -/
theorem addResult : Obligations.AddResult := by
  intro n s h1 h8
  have hops := sourceA_length_eq_sourceB s h8
  have hlen := (addAssign_length hops).trans (s.sourceA_length h8)
  have hsum := addAssign_val hops
  obtain ⟨hlow, habove⟩ := slice_setSlice_low s.A hlen h8
  rw [s.sourceA_length h8] at hsum
  refine ⟨_, exec_add s ⟨h1, h8⟩, ?_, habove _, ?_⟩
  · rw [State.answerUnspecified_A, State.setCF_A, State.setA_A, hlow]
    exact hsum
  · apply State.eq_of_fields <;> simp

/-- Settles O32: `add_assign_extended` is exact on the window and `A[0..n)` (R77), and its sum replaces the window only. -/
theorem addxResult : Obligations.AddxResult := by
  intro off m n s h1 h8 hnm hwin
  have hW := s.windowP_length hwin
  have hops : (s.sourceA n).length ≤ (s.windowP off m).length := by rwa [s.sourceA_length h8, hW]
  have hlen := (addAssignExtended_length hops).trans hW
  have hsum := addAssignExtended_val hops
  obtain ⟨hsame, hbelow, habove⟩ := slice_setSlice_parts s.P hlen hwin
  rw [hW] at hsum
  refine ⟨_, exec_addx s ⟨h1, h8, hnm, hwin⟩, ?_, hbelow, habove _, ?_⟩
  · rw [State.answerUnspecified_P, State.setCF_P, State.setP_P, hsame]
    exact hsum
  · apply State.eq_of_fields <;> simp

/-- Settles O33: `sub` is exact on `A[0..n)` and `B[0..n)` and its borrow is their comparison (R78); the difference
replaces `P[0..n)` only. -/
theorem subResult : Obligations.SubResult := by
  intro n s h1 h8
  have hops := sourceA_length_eq_sourceB s h8
  have hlen := (subLimbs_length hops).trans (s.sourceA_length h8)
  have hdiff := subLimbs_val hops
  obtain ⟨hlow, habove⟩ := slice_setSlice_low s.P hlen (h8.trans (by decide))
  rw [s.sourceA_length h8] at hdiff
  refine ⟨_, exec_sub s ⟨h1, h8⟩, ?_, subLimbs_borrow hops, habove _, ?_⟩
  · rw [State.answerUnspecified_P, State.setBF_P, State.setP_P, hlow]
    exact hdiff
  · apply State.eq_of_fields <;> simp

end Sys2Proof.Machine

/-! Proofs of the schoolbook multiplier family: the length of a product of two operand ranges, a register replaced as a
whole, and the results of `MULS4` and `MULS8`. -/

namespace Sys2Proof.Machine

/-- A register whose every limb is replaced holds the new limbs. -/
theorem setSlice_toList_all {N : Nat} (v : Limbs N) {u : List Limb} (hu : u.length = N) :
    (setSlice v 0 u).toList = u := by
  obtain ⟨hall, -⟩ := slice_setSlice_low v hu le_rfl
  rwa [slice_all] at hall

/-- `mul_school` of `A[0..n)` and `B[0..n)` has `2n` limbs (R90). -/
theorem mulSchool_operands_length (s : State) {n : Nat} (h : n ≤ 8) :
    (mulSchool (s.sourceA n) (s.sourceB n)).length = n + n := by
  rw [mulSchool_length, s.sourceA_length h, s.sourceB_length h]

/-- Settles O34: `mul_school` is exact on the low halves (R92), and its 8 limbs replace `P[0..8)` only. -/
theorem muls4Result : Obligations.Muls4Result := by
  intro s
  have hlen : (mulSchool (s.sourceA 4) (s.sourceB 4)).length = 8 := mulSchool_operands_length s (by decide)
  obtain ⟨hlow, habove⟩ := slice_setSlice_low s.P hlen (by decide)
  refine ⟨_, exec_muls4 s, ?_, habove 8, ?_⟩
  · rw [State.answerUnspecified_P, State.setP_P, hlow]
    exact mulSchool_val _ _
  · apply State.eq_of_fields <;> simp

/-- Settles O35: `mul_school` is exact on `A` and `B` (R92), and its 16 limbs replace the whole of `P`. -/
theorem muls8Result : Obligations.Muls8Result := by
  intro s
  have hlen : (mulSchool (s.sourceA 8) (s.sourceB 8)).length = 16 := mulSchool_operands_length s (by decide)
  refine ⟨_, exec_muls8 s, ?_, ?_⟩
  · rw [State.answerUnspecified_P, State.setP_P, setSlice_toList_all s.P hlen, mulSchool_val, State.sourceA_eq,
      State.sourceB_eq, slice_all, slice_all]
  · apply State.eq_of_fields <;> simp

end Sys2Proof.Machine

/-! Proofs of the Karatsuba multiplier family: the limbs of a vector as digits of its value, an addition at a limb offset
that does not carry out, the bounds of the cross term, and the exact product. -/

namespace Sys2Proof.Machine

/-! ### Limbs as digits of the value (R11) -/

theorem val_drop : ∀ (xs : List Limb) (n : Nat), val (xs.drop n) = val xs / Config.radix ^ n
  | xs, 0 => by simp
  | [], n + 1 => by simp
  | x :: xs, n + 1 => by
    rw [List.drop_succ_cons, val_drop xs n, val_cons, pow_succ', ← Nat.div_div_eq_div_mul,
      Nat.add_mul_div_left _ _ radix_pos, Nat.div_eq_of_lt (limb_lt_radix x), Nat.zero_add]

theorem headD_toNat_le_val (xs : List Limb) : (xs.headD 0).toNat ≤ val xs := by
  cases xs with
  | nil => exact le_rfl
  | cons x xs => exact Nat.le_add_right _ _

theorem getD_toNat_le_div (xs : List Limb) (n : Nat) : (xs.getD n 0).toNat ≤ val xs / Config.radix ^ n := by
  have hhead : (xs.drop n).headD 0 = xs.getD n 0 := by
    rw [List.headD_eq_head?_getD, List.head?_drop, List.getD_eq_getElem?_getD]
  rw [← hhead, ← val_drop]
  exact headD_toNat_le_val _

/-- The limbs beyond the bound of a value are 0. -/
theorem drop_eq_zeros {xs : List Limb} {n : Nat} (h : val xs < Config.radix ^ n) :
    xs.drop n = zeros (xs.length - n) :=
  val_inj (by simp) (by rw [val_drop, Nat.div_eq_of_lt h, val_zeros])

/-! ### An addition that does not carry out (R77) -/

/-- R77 where the sum fits its destination. -/
theorem addAssignExtended_of_lt {dst src : List Limb} (hlen : src.length ≤ dst.length)
    (hlt : val dst + val src < Config.radix ^ dst.length) :
    (addAssignExtended dst src).2 = false ∧ val (addAssignExtended dst src).1 = val dst + val src := by
  have hv := addAssignExtended_val hlen
  cases hc : (addAssignExtended dst src).2 with
  | false => exact ⟨rfl, by simpa [hc] using hv⟩
  | true =>
    rw [hc, Bool.toNat_true, Nat.one_mul] at hv
    omega

/-- Adding `z` into `p[k..)` adds `val(z)·B^k`, with no carry out, when the sum fits `p`: the shape of both additions of
R107. -/
theorem addAtOffset_of_lt {p z : List Limb} {k : Nat} (hlen : k + z.length ≤ p.length)
    (hlt : val p + Config.radix ^ k * val z < Config.radix ^ p.length) :
    (addAssignExtended (p.drop k) z).2 = false ∧
      val (p.take k ++ (addAssignExtended (p.drop k) z).1) = val p + Config.radix ^ k * val z := by
  have hk : (p.take k).length = k := List.length_take_of_le (by omega)
  have hsplit := val_append (p.take k) (p.drop k)
  rw [List.take_append_drop, hk] at hsplit
  have hfits : val (p.drop k) + val z < Config.radix ^ (p.drop k).length := by
    have hpow : Config.radix ^ p.length = Config.radix ^ k * Config.radix ^ (p.drop k).length := by
      rw [← pow_add, List.length_drop, Nat.add_sub_cancel' (by omega)]
    refine Nat.lt_of_mul_lt_mul_left (a := Config.radix ^ k) ?_
    rw [← hpow, Nat.mul_add]
    omega
  obtain ⟨hcarry, hsum⟩ := addAssignExtended_of_lt (by rw [List.length_drop]; omega) hfits
  refine ⟨hcarry, ?_⟩
  rw [val_append, hk, hsum, hsplit]
  ring

theorem withCrossTerm_of_lt {z0 z1 : List Limb} (h0 : z0.length = 8) (h1 : z1.length = 12)
    (hlt : val z0 + Config.radix ^ 4 * val z1 < Config.radix ^ 16) :
    (withCrossTerm z0 z1).2 = false ∧ val (withCrossTerm z0 z1).1 = val z0 + Config.radix ^ 4 * val z1 := by
  have hp : (z0 ++ zeros 8).length = 16 := by simp [h0]
  rw [← val_append_zeros z0 8] at hlt ⊢
  exact addAtOffset_of_lt (by rw [h1, hp]) (by rwa [hp])

theorem withHighProduct_of_lt {p z2 : List Limb} (hp : p.length = 16) (h2 : z2.length = 8)
    (hlt : val p + Config.radix ^ 8 * val z2 < Config.radix ^ 16) :
    (withHighProduct p z2).2 = false ∧ val (withHighProduct p z2).1 = val p + Config.radix ^ 8 * val z2 :=
  addAtOffset_of_lt (by rw [h2, hp]) (by rwa [hp])

section
variable {a b : List Limb} (ha : a.length = 8) (hb : b.length = 8)
include ha hb

/-! ### The cross term (R106) -/

theorem crossTerm_le : val (crossTerm a b).1 ≤ 2 * (Config.radix ^ 4 - 1) ^ 2 := by
  obtain ⟨-, hz1⟩ := crossTerm_exact ha hb
  have hlow := Nat.mul_le_mul (Nat.le_sub_one_of_lt (val_lowHalf_lt ha)) (Nat.le_sub_one_of_lt (val_highHalf_lt hb))
  have hhigh := Nat.mul_le_mul (Nat.le_sub_one_of_lt (val_highHalf_lt ha)) (Nat.le_sub_one_of_lt (val_lowHalf_lt hb))
  rw [hz1, Nat.two_mul, pow_two]
  exact Nat.add_le_add hlow hhigh

theorem crossTerm_lt : val (crossTerm a b).1 < 2 * Config.radix ^ 8 :=
  (crossTerm_le ha hb).trans_lt (by decide)

/-- Of the 12 limbs of `z1` the last three are 0. -/
theorem crossTerm_drop : (crossTerm a b).1.drop 9 = zeros 3 := by
  have h := drop_eq_zeros (n := 9) ((crossTerm_lt ha hb).trans (by decide))
  rwa [crossTerm_length ha hb] at h

theorem crossTerm_limb8_le : ((crossTerm a b).1.getD 8 0).toNat ≤ 1 := by
  refine (getD_toNat_le_div _ 8).trans (Nat.le_of_lt_succ (Nat.div_lt_of_lt_mul ?_))
  rw [Nat.mul_comm]
  exact crossTerm_lt ha hb

/-! ### The recombination (R108) -/

/-- The three products at their offsets make up the whole product. -/
theorem recombination_val :
    val (lowProduct a b) + Config.radix ^ 4 * val (crossTerm a b).1 + Config.radix ^ 8 * val (highProduct a b)
      = val a * val b := by
  obtain ⟨-, hz1⟩ := crossTerm_exact ha hb
  rw [hz1, lowProduct, highProduct, mulSchool_val, mulSchool_val, halves_val ha, halves_val hb]
  ring

theorem val_mul_val_lt : val a * val b < Config.radix ^ 16 := by
  have hva := val_lt a
  have hvb := val_lt b
  rw [ha] at hva
  rw [hb] at hvb
  rw [show 16 = 8 + 8 from rfl, pow_add]
  exact Nat.mul_lt_mul'' hva hvb

/-- R108: each partial sum of the recombination is at most the product, which fits the 16 limbs. -/
theorem recombination_exact :
    (withCrossTerm (lowProduct a b) (crossTerm a b).1).2 = false ∧
    (withHighProduct (withCrossTerm (lowProduct a b) (crossTerm a b).1).1 (highProduct a b)).2 = false ∧
    val (mulKaratsuba a b).1 = val a * val b := by
  have h0 := lowProduct_length ha hb
  have h1 := crossTerm_length ha hb
  have hval := recombination_val ha hb
  have hfits := val_mul_val_lt ha hb
  rw [← hval] at hfits
  obtain ⟨hc1, hp⟩ := withCrossTerm_of_lt h0 h1 ((Nat.le_add_right _ _).trans_lt hfits)
  rw [← hp] at hval hfits
  obtain ⟨hc2, hp'⟩ := withHighProduct_of_lt (withCrossTerm_length h0 h1) (highProduct_length ha hb) hfits
  exact ⟨hc1, hc2, hp'.trans hval⟩

theorem mulKaratsuba_val : val (mulKaratsuba a b).1 = val a * val b := by
  obtain ⟨-, -, hval⟩ := recombination_exact ha hb
  exact hval

/-- R111: 16 limbs of one value. -/
theorem mulKaratsuba_eq_mulSchool : (mulKaratsuba a b).1 = mulSchool a b :=
  val_inj (by rw [mulKaratsuba_length ha hb, mulSchool_length, ha, hb])
    (by rw [mulKaratsuba_val ha hb, mulSchool_val])

end

/-- `mul_karatsuba` of `A` and `B` has 16 limbs (R109). -/
theorem mulKaratsuba_operands_length (s : State) : (mulKaratsuba (s.sourceA 8) (s.sourceB 8)).1.length = 16 :=
  mulKaratsuba_length (s.sourceA_length le_rfl) (s.sourceB_length le_rfl)

/-- Settles O37: `crossTerm_exact` gives the borrows and the value, and the value's bound the facts of its limbs. -/
theorem crossTermNeverBorrows : Obligations.CrossTermNeverBorrows := by
  intro a b ha hb
  obtain ⟨hk1, -⟩ := crossLessLow_exact ha hb
  obtain ⟨hk2, hz1⟩ := crossTerm_exact ha hb
  exact ⟨hk1, hk2, hz1, crossTerm_le ha hb, by decide, crossTerm_drop ha hb, crossTerm_limb8_le ha hb⟩

/-- Settles O38: each partial sum is at most the exact product, so neither addition carries out. -/
theorem recombinationIsExact : Obligations.RecombinationIsExact := by
  intro a b ha hb
  obtain ⟨hc1, hc2, hval⟩ := recombination_exact ha hb
  exact ⟨hc1, hc2, mulKaratsuba_length ha hb, hval⟩

/-- Settles O36: `mul_karatsuba` is exact on `A` and `B`, its 16 limbs replace the whole of `P`, and `KB` is its borrow. -/
theorem mulkIsExact : Obligations.MulkIsExact := by
  intro s
  have ha := s.sourceA_length (n := 8) le_rfl
  have hb := s.sourceB_length (n := 8) le_rfl
  refine ⟨_, exec_mulk s, ?_, ?_⟩
  · rw [State.answerUnspecified_P, State.setKB_P, State.setP_P,
      setSlice_toList_all s.P (mulKaratsuba_operands_length s), mulKaratsuba_val ha hb, State.sourceA_eq,
      State.sourceB_eq, slice_all, slice_all]
  · apply State.eq_of_fields <;> simp [mulKaratsuba_kb ha hb]

/-- Settles O39: the two products are the same 16 limbs, and they replace the whole of `P` whatever it held. -/
theorem karatsubaEqualsSchoolbook : Obligations.KaratsubaEqualsSchoolbook := by
  refine ⟨fun _ _ => mulKaratsuba_eq_mulSchool, fun s s' hA hB => ⟨_, _, exec_mulk s, exec_muls8 s', ?_⟩⟩
  have hsame : (mulKaratsuba (s.sourceA 8) (s.sourceB 8)).1 = mulSchool (s'.sourceA 8) (s'.sourceB 8) := by
    rw [mulKaratsuba_eq_mulSchool (s.sourceA_length le_rfl) (s.sourceB_length le_rfl), State.sourceA_eq,
      State.sourceB_eq, hA, hB, State.sourceA_eq, State.sourceB_eq]
  apply Vector.toList_inj.mp
  rw [State.answerUnspecified_P, State.setKB_P, State.setP_P, State.answerUnspecified_P, State.setP_P,
    setSlice_toList_all s.P (mulKaratsuba_operands_length s),
    setSlice_toList_all s'.P (mulSchool_operands_length s' le_rfl), hsame]

end Sys2Proof.Machine

/-! Proofs of the modular reducer family: the sum of the halves decides the fold's carry and the residue (R115 to R117),
three facts pin the residue down (R119), and `RED256` applies `reduce256` to the whole of `P`. -/

namespace Sys2Proof.Machine

/-! ### The modulus, and vectors of the two special values -/

theorem modulus_succ : Config.modulus + 1 = Config.radix ^ 8 := by decide

theorem modulus_pos : 0 < Config.modulus := by decide

theorem val_le_modulus {s : List Limb} (h : s.length = 8) : val s ≤ Config.modulus := by
  have hlt := val_lt s
  rw [h, ← modulus_succ] at hlt
  exact Nat.le_of_lt_succ hlt

theorem eq_zeros_iff_val {xs : List Limb} {n : Nat} (h : xs.length = n) : xs = zeros n ↔ val xs = 0 := by
  constructor
  · rintro rfl
    exact val_zeros n
  · intro hv
    exact val_inj (by rw [h, zeros_length]) (by rw [hv, val_zeros])

theorem eq_ones_iff_val {s : List Limb} (h : s.length = 8) : s = ones 8 ↔ val s = Config.modulus := by
  constructor
  · rintro rfl
    exact val_ones 8
  · intro hv
    exact val_inj (by rw [h, ones_length]) (hv.trans (val_ones 8).symm)

theorem val_eq_val_take_of_drop_eq_zeros {x : List Limb} (hz : x.drop 8 = zeros 8) : val x = val (x.take 8) := by
  rw [← val_append_zeros (x.take 8) 8, ← hz, List.take_append_drop]

/-- Under `CANON_ALL_ONES = true` the third line of R118 makes a residue canonical: `M` becomes 0. -/
theorem canonicalize_true_val {s : List Limb} (h : s.length = 8) :
    val (canonicalize true s) = val s % Config.modulus := by
  by_cases hones : s = ones 8
  · have hcanon : canonicalize true s = zeros 8 := by simp [canonicalize, hones]
    rw [hcanon, val_zeros, (eq_ones_iff_val h).mp hones, Nat.mod_self]
  · have hcanon : canonicalize true s = s := by simp [canonicalize, hones]
    have hne : val s ≠ Config.modulus := fun hv => hones ((eq_ones_iff_val h).mpr hv)
    rw [hcanon, Nat.mod_eq_of_lt (lt_of_le_of_ne (val_le_modulus h) hne)]

/-! ### The sum of the halves (R115) -/

/-- `t` of R119: the sum that the fold of R115 makes; `foldHalves_carry` and `endAround_foldHalves_val` tie it to the
reducer. -/
def halvesSum (x : List Limb) : Nat := val (x.take 8) + val (x.drop 8)

section
variable {x : List Limb} (h : x.length = 16)
include h

theorem take_eight_length : (x.take 8).length = 8 := by simp [h]

theorem drop_eight_length : (x.drop 8).length = 8 := by simp [h]

theorem halvesSum_le : halvesSum x ≤ 2 * Config.modulus := by
  have hlo := val_le_modulus (take_eight_length h)
  have hhi := val_le_modulus (drop_eight_length h)
  unfold halvesSum
  omega

/-- `B^8 = M + 1`, so the value exceeds the sum of the halves by a multiple of `M`. -/
theorem val_eq_halvesSum_add : val x = halvesSum x + Config.modulus * val (x.drop 8) := by
  have hsplit := val_append (x.take 8) (x.drop 8)
  rw [List.take_append_drop, take_eight_length h, ← modulus_succ] at hsplit
  rw [hsplit, halvesSum]
  ring

theorem halvesSum_mod : halvesSum x % Config.modulus = val x % Config.modulus := by
  rw [val_eq_halvesSum_add h, Nat.add_mul_mod_self_left]

theorem halvesSum_eq_zero_iff : halvesSum x = 0 ↔ val x = 0 := by
  constructor
  · intro ht
    have hhi : val (x.drop 8) = 0 := (Nat.add_eq_zero_iff.mp ht).2
    rw [val_eq_halvesSum_add h, ht, hhi, Nat.mul_zero]
  · intro hv
    rw [val_eq_halvesSum_add h] at hv
    exact (Nat.add_eq_zero_iff.mp hv).1

/-- Both halves are at most `M`, so the sum reaches `2·M` only where both are all ones. -/
theorem halvesSum_eq_two_mul_iff : halvesSum x = 2 * Config.modulus ↔ x = ones 16 := by
  constructor
  · intro ht
    have hlo := val_le_modulus (take_eight_length h)
    have hhi := val_le_modulus (drop_eight_length h)
    unfold halvesSum at ht
    have htake : x.take 8 = ones 8 := (eq_ones_iff_val (take_eight_length h)).mpr (by omega)
    have hdrop : x.drop 8 = ones 8 := (eq_ones_iff_val (drop_eight_length h)).mpr (by omega)
    rw [← List.take_append_drop 8 x, htake, hdrop]
    rfl
  · rintro rfl
    have hhalf : val (ones 8) = Config.modulus := val_ones 8
    show val (ones 8) + val (ones 8) = 2 * Config.modulus
    rw [hhalf, Nat.two_mul]

/-! ### The fold and the end-around carry (R115 to R117) -/

/-- The fold carries iff the sum of the halves exceeds `M`. -/
theorem foldHalves_carry : (foldHalves x).2 = decide (Config.modulus < halvesSum x) := by
  have hlen : (x.take 8).length = (x.drop 8).length := by rw [take_eight_length h, drop_eight_length h]
  have hcarry := addc_carry false hlen
  rw [take_eight_length h, ← modulus_succ] at hcarry
  exact hcarry

/-- R117: after a fold that carried the sum stands at most at `B^8 - 2`, so the increment has room. -/
theorem endAroundPass_foldHalves (hc : (foldHalves x).2 = true) :
    (endAroundPass (foldHalves x).1).2 = false ∧
      val (endAroundPass (foldHalves x).1).1 = halvesSum x - Config.modulus := by
  have hfold := foldHalves_val h
  have hpass := endAroundPass_val (foldHalves_length h)
  have hle := halvesSum_le h
  rw [hc, Bool.toNat_true, Nat.one_mul, ← modulus_succ, ← halvesSum] at hfold
  rw [← modulus_succ] at hpass
  cases hcarry : (endAroundPass (foldHalves x).1).2 with
  | false =>
    rw [hcarry, Bool.toNat_false, Nat.zero_mul] at hpass
    exact ⟨rfl, by omega⟩
  | true =>
    rw [hcarry, Bool.toNat_true, Nat.one_mul] at hpass
    omega

/-- R119, in terms of the halves: what the fold and the end-around carry leave. -/
theorem endAround_foldHalves_val :
    val (endAround (foldHalves x))
      = if halvesSum x ≤ Config.modulus then halvesSum x else halvesSum x - Config.modulus := by
  have hcarry := foldHalves_carry h
  by_cases hle : halvesSum x ≤ Config.modulus
  · have hc : (foldHalves x).2 = false := by rw [hcarry, decide_eq_false (Nat.not_lt.mpr hle)]
    have hfold := foldHalves_val h
    rw [hc, Bool.toNat_false, Nat.zero_mul] at hfold
    rw [if_pos hle, endAround, hc]
    exact hfold
  · have hc : (foldHalves x).2 = true := by rw [hcarry, decide_eq_true (Nat.lt_of_not_le hle)]
    obtain ⟨-, hval⟩ := endAroundPass_foldHalves h hc
    rw [if_neg hle, endAround, hc]
    exact hval

/-- R117: the loop as written is the `if` of the model, however many passes it may take. -/
theorem endAroundLoop_foldHalves (passes : Nat) :
    endAroundLoop (passes + 1) (foldHalves x) = (endAround (foldHalves x), false) := by
  cases hc : (foldHalves x).2 with
  | false =>
    rw [endAroundLoop_of_no_carry hc, endAround, hc]
    exact Prod.ext rfl hc
  | true =>
    obtain ⟨hdone, -⟩ := endAroundPass_foldHalves h hc
    rw [endAroundLoop, if_pos hc, endAroundLoop_of_no_carry hdone, endAround, if_pos hc]
    exact Prod.ext rfl hdone

/-! ### The residue (R118, R119) -/

theorem endAround_foldHalves_length : (endAround (foldHalves x)).length = 8 := endAround_length (foldHalves_length h)

theorem reduce256_take : (reduce256 x).take 8 = endAround (foldHalves x) :=
  List.take_left' (endAround_foldHalves_length h)

theorem reduce256_drop : (reduce256 x).drop 8 = zeros 8 :=
  List.drop_left' (endAround_foldHalves_length h)

theorem residue_le : val (endAround (foldHalves x)) ≤ Config.modulus := val_le_modulus (endAround_foldHalves_length h)

theorem residue_mod : val (endAround (foldHalves x)) % Config.modulus = val x % Config.modulus := by
  rw [endAround_foldHalves_val h, ← halvesSum_mod h]
  split_ifs with hle
  · rfl
  · exact (Nat.mod_eq_sub_mod (Nat.le_of_not_le hle)).symm

/-- A non-zero input never reduces to zero: only a sum above `M` is lowered, and by `M`. -/
theorem residue_eq_zero_iff : val (endAround (foldHalves x)) = 0 ↔ val x = 0 := by
  rw [endAround_foldHalves_val h, ← halvesSum_eq_zero_iff h]
  split_ifs with hle <;> omega

theorem residue_eq_modulus_iff_halvesSum :
    val (endAround (foldHalves x)) = Config.modulus ↔
      halvesSum x = Config.modulus ∨ halvesSum x = 2 * Config.modulus := by
  have hpos := modulus_pos
  have hmax := halvesSum_le h
  rw [endAround_foldHalves_val h]
  split_ifs with hle <;> omega

end

/-- What is at most `m`, congruent to `v` modulo `m` and 0 only for `v = 0` has the closed form of R119. -/
theorem eq_closed_form {m r v : Nat} (hle : r ≤ m) (hmod : r % m = v % m) (hzero : r = 0 ↔ v = 0) :
    r = if v = 0 then 0 else (v - 1) % m + 1 := by
  split_ifs with hv
  · exact hzero.mpr hv
  · have hr : r ≠ 0 := mt hzero.mp hv
    obtain ⟨v, rfl⟩ := Nat.exists_eq_succ_of_ne_zero hv
    obtain ⟨r, rfl⟩ := Nat.exists_eq_succ_of_ne_zero hr
    have hpred : r % m = v % m := Nat.ModEq.add_right_cancel' 1 hmod
    rw [Nat.succ_sub_one, ← hpred, Nat.mod_eq_of_lt hle]

/-- What is at most `m`, congruent to `v` modulo `m` and 0 only for `v = 0` is `m` for the positive multiples of `m`. -/
theorem eq_modulus_iff {m r v : Nat} (hm : 0 < m) (hle : r ≤ m) (hmod : r % m = v % m) (hzero : r = 0 ↔ v = 0) :
    r = m ↔ 0 < v ∧ v % m = 0 := by
  rw [← hmod, Nat.pos_iff_ne_zero, ne_eq, ← hzero]
  constructor
  · rintro rfl
    exact ⟨hm.ne', Nat.mod_self r⟩
  · rintro ⟨hr, hdvd⟩
    exact Nat.le_antisymm hle (Nat.le_of_dvd (Nat.pos_of_ne_zero hr) (Nat.dvd_of_mod_eq_zero hdvd))

section
variable {x : List Limb} (h : x.length = 16)
include h

theorem residue_closed_form :
    val (endAround (foldHalves x)) = if val x = 0 then 0 else (val x - 1) % Config.modulus + 1 :=
  eq_closed_form (residue_le h) (residue_mod h) (residue_eq_zero_iff h)

theorem residue_eq_modulus_iff :
    val (endAround (foldHalves x)) = Config.modulus ↔ 0 < val x ∧ val x % Config.modulus = 0 :=
  eq_modulus_iff modulus_pos (residue_le h) (residue_mod h) (residue_eq_zero_iff h)

/-- The residue is the canonical one unless it is `M`. -/
theorem residue_eq_mod (hne : val (endAround (foldHalves x)) ≠ Config.modulus) :
    val (endAround (foldHalves x)) = val x % Config.modulus := by
  rw [← residue_mod h, Nat.mod_eq_of_lt (lt_of_le_of_ne (residue_le h) hne)]

theorem val_canonicalize_true_residue :
    val (canonicalize true (endAround (foldHalves x))) = val x % Config.modulus := by
  rw [canonicalize_true_val (endAround_foldHalves_length h), residue_mod h]

/-! ### Reducing a reduced value (R121) -/

/-- The fold adds zero, and produces no carry. -/
theorem reduce256_of_drop_eq_zeros (hz : x.drop 8 = zeros 8) : reduce256 x = x := by
  have hsum : halvesSum x = val (x.take 8) := by rw [halvesSum, hz, val_zeros, Nat.add_zero]
  have hlo : endAround (foldHalves x) = x.take 8 := by
    refine val_inj (by rw [endAround_foldHalves_length h, take_eight_length h]) ?_
    rw [endAround_foldHalves_val h, hsum, if_pos (val_le_modulus (take_eight_length h))]
  rw [← List.take_append_drop 8 (reduce256 x), reduce256_take h, reduce256_drop h, hlo, ← hz, List.take_append_drop]

theorem reduce256_idempotent : reduce256 (reduce256 x) = reduce256 x :=
  reduce256_of_drop_eq_zeros (reduce256_length h) (reduce256_drop h)

/-- With `CANON_ALL_ONES = true` a reduced value would be left as it is iff it is below `M`. -/
theorem canonicalize_true_keeps_iff (hz : x.drop 8 = zeros 8) :
    canonicalize true (endAround (foldHalves x)) ++ zeros 8 = x ↔ x.take 8 ≠ ones 8 := by
  have hlen : (canonicalize true (endAround (foldHalves x)) ++ zeros 8).length = x.length := by
    rw [List.length_append, canonicalize_length true (endAround_foldHalves_length h), zeros_length, h]
  have hval : val (canonicalize true (endAround (foldHalves x)) ++ zeros 8) = val x % Config.modulus := by
    rw [val_append_zeros, val_canonicalize_true_residue h]
  calc canonicalize true (endAround (foldHalves x)) ++ zeros 8 = x
      ↔ val x % Config.modulus = val x := by
        rw [← hval]
        exact ⟨congrArg val, val_inj hlen⟩
    _ ↔ val (x.take 8) < Config.modulus := by
        rw [Nat.mod_eq_iff_lt modulus_pos.ne', val_eq_val_take_of_drop_eq_zeros hz]
    _ ↔ x.take 8 ≠ ones 8 := by
        rw [ne_eq, eq_ones_iff_val (take_eight_length h)]
        exact (val_le_modulus (take_eight_length h)).lt_iff_ne

end

/-! ### The command (R122) -/

/-- `RED256` replaces the whole of `P` by its reduction. -/
theorem legalEffect_red256_P (s : State) : (legalEffect .red256 s).P.toList = reduce256 s.P.toList := by
  rw [legalEffect, State.answerUnspecified_P, State.setP_P, State.windowP_eq, slice_all]
  exact setSlice_toList_all s.P (reduce256_length (Vector.length_toList))

/-- The low half of `P` after `RED256`. -/
theorem legalEffect_red256_slice_low (s : State) :
    slice (legalEffect .red256 s).P 0 8 = endAround (foldHalves s.P.toList) := by
  rw [slice, List.drop_zero, legalEffect_red256_P, reduce256_take Vector.length_toList]

/-- The high half of `P` after `RED256`. -/
theorem legalEffect_red256_slice_high (s : State) : slice (legalEffect .red256 s).P 8 8 = zeros 8 := by
  rw [slice, legalEffect_red256_P, reduce256_drop Vector.length_toList]
  rfl

/-- A second `RED256` leaves `P` as it is. -/
theorem legalEffect_red256_twice_P (s : State) :
    (legalEffect .red256 (legalEffect .red256 s)).P = (legalEffect .red256 s).P := by
  apply Vector.toList_inj.mp
  rw [legalEffect_red256_P, legalEffect_red256_P, reduce256_idempotent Vector.length_toList]

/-- Both 8-limb multipliers leave the exact product in `P`. -/
theorem exec_multiply_P {i : Instr} (hi : i = .mulk ∨ i = .muls8) (s : State) :
    ∃ t, exec i s = .next t ∧ val t.P.toList = val s.A.toList * val s.B.toList := by
  obtain rfl | rfl := hi
  · obtain ⟨t, hexec, hval, -⟩ := mulkIsExact s
    exact ⟨t, hexec, hval⟩
  · obtain ⟨t, hexec, hval, -⟩ := muls8Result s
    exact ⟨t, hexec, hval⟩

/-! ### The obligations -/

/-- Settles O40: a fold that carried leaves at most `B^8 - 2`, so the increment has no carry to go round again. -/
theorem endAroundRunsAtMostOnce : Obligations.EndAroundRunsAtMostOnce := fun _ h =>
  ⟨fun hc => (endAroundPass_foldHalves h hc).1, endAroundLoop_foldHalves h⟩

/-- Settles O41: the residue is congruent to the input, at most `M`, and 0 only for 0, which makes the closed form. -/
theorem residueRangeAndCongruence : Obligations.ResidueRangeAndCongruence := by
  intro x h v r t
  have hr : r = val (endAround (foldHalves x)) := congrArg val (reduce256_take h)
  rw [hr]
  exact ⟨residue_mod h, residue_le h, residue_closed_form h, endAround_foldHalves_val h,
    val_canonicalize_true_residue h⟩

/-- Settles O42: the special residues are those of the values 0 and `M`. -/
theorem specialResidues : Obligations.SpecialResidues := by
  intro x h
  have hlen := endAround_foldHalves_length h
  rw [reduce256_take h, eq_zeros_iff_val hlen, eq_ones_iff_val hlen, eq_zeros_iff_val h]
  refine ⟨residue_eq_zero_iff h, residue_eq_modulus_iff h, residue_eq_modulus_iff_halvesSum h,
    halvesSum_eq_two_mul_iff h, ?_⟩
  intro hnonzero hspecial
  have hv : val x ≠ 0 := mt (eq_zeros_iff_val h).mpr hnonzero
  have hne : val (endAround (foldHalves x)) ≠ Config.modulus := mt (residue_eq_modulus_iff h).mp hspecial
  rw [← residue_eq_mod h hne]
  exact ⟨rfl, Nat.one_le_iff_ne_zero.mpr (mt (residue_eq_zero_iff h).mp hv),
    Nat.le_sub_one_of_lt (lt_of_le_of_ne (residue_le h) hne)⟩

/-- Settles O43: zero upper limbs are added without a carry, and every reduction has zero upper limbs. -/
theorem reductionIsIdempotent : Obligations.ReductionIsIdempotent := fun _ h =>
  ⟨reduce256_of_drop_eq_zeros h, reduce256_idempotent h, canonicalize_true_keeps_iff h⟩

/-- Settles O44: the reduction replaces the whole of `P`, and its low half has the closed form of R119. -/
theorem redResult : Obligations.RedResult := by
  intro s
  refine ⟨_, exec_of_wellFormed s rfl, ?_, legalEffect_red256_slice_high s, ?_⟩
  · rw [legalEffect_red256_slice_low, residue_closed_form Vector.length_toList]
  · apply State.eq_of_fields <;> simp [legalEffect]

/-- Settles O45: the product is exact, its residue is congruent to it, and reducing a residue changes nothing. -/
theorem multiplyThenReduce : Obligations.MultiplyThenReduce := by
  intro i s hi
  obtain ⟨t, hexec, hval⟩ := exec_multiply_P hi s
  refine ⟨t, _, _, hexec, exec_of_wellFormed t rfl, exec_of_wellFormed _ rfl, ?_, ?_, legalEffect_red256_twice_P t⟩
  · rw [legalEffect_red256_slice_low, residue_mod Vector.length_toList, hval]
  · rw [legalEffect_red256_slice_low]
    exact residue_le Vector.length_toList

end Sys2Proof.Machine

/-! Proofs of the host access family: what a write leaves unchanged in the limb address space, writes to different
locations commute, and the answers of a read. -/

namespace Sys2Proof.Machine

open Safety (SameItems)

/-! ### A write and the other locations (R130, R46) -/

/-- Every location but the written one reads as before: the registers are apart, and one limb of a register is
replaced. -/
theorem readLimb_writeLimb_other {reg r : Reg} {idx j : Nat} (s : State) (v : Limb) (h : reg.writableAt idx = true)
    (hne : r ≠ reg ∨ j ≠ idx) : (s.writeLimb reg idx v).readLimb r j = s.readLimb r j := by
  by_cases hreg : r = reg
  · subst hreg
    have hj : j ≠ idx := hne.resolve_left (not_not_intro rfl)
    cases r with
    | a | b | p => exact (setSlice_one_getD _ idx v (of_decide_eq_true h) j).trans (if_neg hj)
    | st => rfl
  · cases reg <;> cases r <;> try contradiction
    all_goals rfl

/-- Settles O26: the write is at the addressed location, and the frame of `writeLimb` and of the free answer is the
rest. -/
theorem wrlWritesExactlyOneLimb : Obligations.WrlWritesExactlyOneLimb := by
  intro reg idx s h
  refine ⟨_, exec_wrl s h, ?_, ?_, ?_⟩
  · rw [readLimb_answerUnspecified]
    exact readLimb_writeLimb_same s s.wdata h
  · intro r j hne
    rw [readLimb_answerUnspecified]
    exact readLimb_writeLimb_other s s.wdata h hne
  · apply State.eq_of_fields <;> simp

/-! ### The answer of a read (R131, R26) -/

/-- A legal `RDL` answers what its location holds, and only `rdata` changes. -/
theorem exec_rdl_of_readLimb_eq {reg : Reg} {idx : Nat} {s : State} {v : Limb} (h : reg.readableAt idx = true)
    (hv : s.readLimb reg idx = v) : exec (.rdl reg idx) s = .next { s with rdata := v } :=
  hv ▸ exec_rdl s h

/-- Settles O27, register by register. -/
theorem rdlAnswersAndChangesNothing : Obligations.RdlAnswersAndChangesNothing := by
  intro s
  refine ⟨?_, ?_, ?_, ?_⟩
  · exact fun idx h => exec_rdl_of_readLimb_eq (decide_eq_true h) (readLimb_a s h)
  · exact fun idx h => exec_rdl_of_readLimb_eq (decide_eq_true h) (readLimb_b s h)
  · exact fun idx h => exec_rdl_of_readLimb_eq (decide_eq_true h) (readLimb_p s h)
  · exact ⟨_, exec_rdl_of_readLimb_eq rfl (readLimb_st s 0), rfl, statusWord_toNat s⟩

/-! ### Writes to different locations (R130) -/

/-- Limbs replaced at two places of a vector may be replaced in either order. -/
theorem setSlice_one_comm {N idx idx' : Nat} (u : Limbs N) (v v' : Limb) (hne : idx ≠ idx') :
    setSlice (setSlice u idx [v]) idx' [v'] = setSlice (setSlice u idx' [v']) idx [v] := by
  refine Vector.ext fun i hi => ?_
  simp only [setSlice_getElem, List.length_singleton]
  split_ifs with h' h
  · exact absurd (show idx = idx' by omega) hne
  all_goals rfl

theorem writeLimb_comm {reg reg' : Reg} {idx idx' : Nat} (s : State) (v v' : Limb) (hne : reg ≠ reg' ∨ idx ≠ idx') :
    (s.writeLimb reg idx v).writeLimb reg' idx' v' = (s.writeLimb reg' idx' v').writeLimb reg idx v := by
  by_cases hreg : reg = reg'
  · subst hreg
    have hidx : idx ≠ idx' := hne.resolve_left (not_not_intro rfl)
    cases reg with
    | a | b | p => simp only [State.writeLimb, setSlice_one_comm _ v v' hidx]
    | st => rfl
  · cases reg <;> cases reg' <;> try contradiction
    all_goals rfl

/-- Two states with the items of a third have the same items. -/
theorem sameItems_of_common {s s' u : State} (h : SameItems s u) (h' : SameItems s' u) : SameItems s s' := by
  simp_all [SameItems]

/-- On the items an issued write is the write of its data word: the interface words are not among them. -/
theorem eventEffect_wrl_sameItems {reg : Reg} {idx : Nat} {s s' : State} (v : Limb) (hw : reg.writableAt idx = true)
    (h : SameItems s s') :
    SameItems (eventEffect (.command (encode (.wrl reg idx)) v) s) (s'.writeLimb reg idx v) := by
  rw [eventEffect_of_decode_ok (decode_encode_wrl hw)]
  exact writeLimb_sameItems (s := s.latchWdata v) h reg idx v

/-- Two issued writes, run in order, leave the items as the two limb writes do. -/
theorem core_run_wrl_wrl {reg reg' : Reg} {idx idx' : Nat} (s : State) (v v' : Limb) (h : reg.writableAt idx = true)
    (h' : reg'.writableAt idx' = true) :
    ∃ t, core.run 2 { s with
        pending := [.command (encode (.wrl reg idx)) v, .command (encode (.wrl reg' idx')) v'] } = .next t ∧
      SameItems t ((s.writeLimb reg idx v).writeLimb reg' idx' v') := by
  refine ⟨_, core_run_eq_foldl (events := [.command (encode (.wrl reg idx)) v,
    .command (encode (.wrl reg' idx')) v']) rfl, ?_⟩
  have hstart : SameItems { s with pending := [] } s := ⟨rfl, rfl, rfl, rfl, rfl, rfl, rfl⟩
  exact eventEffect_wrl_sameItems v' h' (eventEffect_wrl_sameItems v h hstart)

/-- Settles O30: the two runs leave the items of the two limb writes, and these commute. -/
theorem writesToDifferentLimbsCommute : Obligations.WritesToDifferentLimbsCommute := by
  intro reg reg' idx idx' s v v' h h' hne
  obtain ⟨t, hrun, hitems⟩ := core_run_wrl_wrl s v v' h h'
  obtain ⟨t', hrun', hitems'⟩ := core_run_wrl_wrl s v' v h' h
  rw [writeLimb_comm s v v' hne] at hitems
  exact ⟨t, t', hrun, hrun', sameItems_of_common hitems hitems'⟩

end Sys2Proof.Machine

/-! Proofs of the exceptions family: what an event does to `ERR` said once, then `ERR` over a step, over a command and
over a run of legal words. -/

namespace Sys2Proof.Machine

open Safety (isLegalWord resetNext illegalNext AllLegal)

/-! ### What is next, and its effect on `ERR` (R141, R142, R155) -/

theorem resetNext_of_idle {s : State} (h : s.pending = []) : resetNext s = false := by
  simp [resetNext, h]

theorem illegalNext_of_idle {s : State} (h : s.pending = []) : illegalNext s = false := by
  simp [illegalNext, h]

theorem resetNext_of_reset {s : State} {rest : List HostEvent} (h : s.pending = .reset :: rest) :
    resetNext s = true := by
  simp [resetNext, h]

theorem illegalNext_of_reset {s : State} {rest : List HostEvent} (h : s.pending = .reset :: rest) :
    illegalNext s = false := by
  simp [illegalNext, h]

theorem resetNext_of_command {s : State} {cmd : CmdWord} {wdata : Limb} {rest : List HostEvent}
    (h : s.pending = .command cmd wdata :: rest) : resetNext s = false := by
  simp [resetNext, h]

theorem illegalNext_of_command {s : State} {cmd : CmdWord} {wdata : Limb} {rest : List HostEvent}
    (h : s.pending = .command cmd wdata :: rest) : illegalNext s = !isLegalWord cmd := by
  simp [illegalNext, h]

/-- Only legal words are pending, so the next event is no illegal word. -/
theorem illegalNext_of_allLegal {s : State} (h : AllLegal s) : illegalNext s = false := by
  match hp : s.pending with
  | [] => exact illegalNext_of_idle hp
  | .reset :: rest => exact illegalNext_of_reset hp
  | .command cmd wdata :: rest =>
    have hmem : HostEvent.command cmd wdata ∈ s.pending := hp ▸ List.mem_cons_self
    rw [illegalNext_of_command hp, h cmd wdata hmem, Bool.not_true]

/-- An illegal word sets `ERR`, and a legal word keeps it. -/
theorem eventEffect_command_ERR (cmd : CmdWord) (wdata : Limb) (s : State) :
    (eventEffect (.command cmd wdata) s).ERR = if isLegalWord cmd then s.ERR else true := by
  cases hd : decode cmd with
  | ok i => simp [eventEffect_of_decode_ok hd, isLegalWord, hd]
  | error e => simp [eventEffect_of_decode_error hd, isLegalWord, hd]

/-! ### `ERR` over one command and over one step -/

/-- Settles O13: a legal command has its effect, and the effect's frame has `ERR`. -/
theorem noLegalCommandFails : Obligations.NoLegalCommandFails := fun i s h =>
  ⟨_, exec_of_wellFormed s h, legalEffect_ERR i s⟩

/-- Settles O18, by cases on the event the step accepts. -/
theorem errWrittenByIllegalWordAndResetOnly : Obligations.ErrWrittenByIllegalWordAndResetOnly := by
  intro s t h
  match hp : s.pending with
  | [] =>
    rw [step_of_idle hp] at h
    cases h
    simp [resetNext_of_idle hp, illegalNext_of_idle hp]
  | .reset :: rest =>
    rw [step_of_pending_cons hp] at h
    cases h
    rw [if_pos (resetNext_of_reset hp)]
    rfl
  | .command cmd wdata :: rest =>
    rw [step_of_pending_cons hp] at h
    cases h
    rw [eventEffect_command_ERR, resetNext_of_command hp, illegalNext_of_command hp]
    cases isLegalWord cmd <;> rfl

/-! ### `ERR` stops nothing (R142) -/

/-- No command reads `ERR` but into its answer: all else of its effect is the same, and `ERR` is kept as it is. -/
theorem legalEffect_with_ERR (i : Instr) (s : State) (e : Bool) :
    legalEffect i { s with ERR := e } =
      { legalEffect i s with ERR := e, rdata := (legalEffect i { s with ERR := e }).rdata } := by
  cases i with
  | wrl reg idx => cases reg <;> rfl
  | rdl | add | addx | sub | muls4 | muls8 | mulk | red256 => rfl

/-- Only the answer of a read of `STATUS` depends on `ERR`. -/
theorem legalEffect_rdata_with_ERR {i : Instr} (h : ∀ idx, i ≠ .rdl .st idx) (s : State) (e : Bool) :
    (legalEffect i { s with ERR := e }).rdata = (legalEffect i s).rdata := by
  cases i with
  | wrl reg idx => cases reg <;> rfl
  | rdl reg idx =>
    cases reg with
    | a | b | p => rfl
    | st => exact absurd rfl (h idx)
  | add | addx | sub | muls4 | muls8 | mulk | red256 => rfl

/-- `STATUS` is readable at index 0 only (R40). -/
theorem ne_rdl_st_of_wellFormed {i : Instr} (hi : i.wellFormed = true) (hne : i ≠ .rdl .st 0) (idx : Nat) :
    i ≠ .rdl .st idx := by
  rintro rfl
  have hidx : idx = 0 := beq_iff_eq.mp hi
  exact hne (hidx ▸ rfl)

/-! ### `ERR` over a run of legal words -/

/-- What a run of legal words keeps: `ERR` is 0 and no illegal word is to come. -/
structure ErrClear (s : State) : Prop where
  err : s.ERR = false
  allLegal : AllLegal s

theorem ErrClear.of_step {s t : State} (h : ErrClear s) (hstep : step s = .next t) : ErrClear t where
  err := by
    rw [errWrittenByIllegalWordAndResetOnly s t hstep, illegalNext_of_allLegal h.allLegal, h.err]
    simp
  allLegal cmd wdata hmem := by
    rw [stepTakesOneEvent s t hstep] at hmem
    exact h.allLegal cmd wdata (List.mem_of_mem_tail hmem)

/-- Every step has a next state: idle, or the effect of the event at the head. -/
theorem step_exists_next (s : State) : ∃ t, step s = .next t := by
  cases hp : s.pending with
  | nil => exact ⟨s, step_of_idle hp⟩
  | cons e rest => exact ⟨_, step_of_pending_cons hp⟩

theorem ErrClear.exists_run (k : Nat) {s : State} (h : ErrClear s) : ∃ t, core.run k s = .next t ∧ ErrClear t := by
  induction k generalizing s with
  | zero => exact ⟨s, rfl, h⟩
  | succ k ih =>
    obtain ⟨t, ht⟩ := step_exists_next s
    rw [core_run_succ ht]
    exact ih (h.of_step ht)

/-- Settles O19: the step's rule for `ERR`, the command's indifference to it, and the run's invariant. -/
theorem errIsStickyAndStopsNothing : Obligations.ErrIsStickyAndStopsNothing := by
  refine ⟨?_, ?_, ?_⟩
  · intro s t herr hreset h
    rw [errWrittenByIllegalWordAndResetOnly s t h, hreset, herr]
    simp
  · intro i s e hi
    refine ⟨_, _, exec_of_wellFormed s hi, exec_of_wellFormed _ hi, legalEffect_ERR i _, ?_⟩
    have hrdata : i ≠ .rdl .st 0 → (legalEffect i { s with ERR := e }).rdata = (legalEffect i s).rdata :=
      fun hne => legalEffect_rdata_with_ERR (ne_rdl_st_of_wellFormed hi hne) s e
    rw [legalEffect_with_ERR] at hrdata ⊢
    exact ⟨rfl, rfl, rfl, rfl, rfl, rfl, hrdata⟩
  · intro k s herr hlegal
    obtain ⟨t, hrun, hend⟩ := ErrClear.exists_run k ⟨herr, hlegal⟩
    exact ⟨t, hrun, hend.err⟩

end Sys2Proof.Machine

/-! Proofs of the reset and hazards family: no step stops, an idle core, the reset event, and which commands change a
data register. -/

namespace Sys2Proof.Machine

/-! ### The step (R155, R160, R164) -/

/-- Settles O12: an idle step keeps the state, and every event has an effect. -/
theorem noStepStops : Obligations.NoStepStops := step_exists_next

/-- Settles O9: an idle core accepts no event. -/
theorem idleKeepsAllState : Obligations.IdleKeepsAllState := fun _ => step_of_idle

/-- Settles O10: the step accepts the reset event, and `State.applyReset` has exactly the stated effect. -/
theorem resetEventEffect : Obligations.ResetEventEffect := fun _ _ => step_of_reset

/-! ### The data registers over one command (R157, R21) -/

theorem legalEffect_A (i : Instr) (s : State) :
    (legalEffect i s).A = s.A ∨ (∃ n, i = .add n) ∨ ∃ idx, i = .wrl .a idx := by
  cases i with
  | add n => exact .inr (.inl ⟨n, rfl⟩)
  | wrl reg idx =>
    cases reg with
    | a => exact .inr (.inr ⟨idx, rfl⟩)
    | b | p | st => exact .inl rfl
  | rdl | addx | sub | muls4 | muls8 | mulk | red256 => simp [legalEffect]

theorem legalEffect_B (i : Instr) (s : State) : (legalEffect i s).B = s.B ∨ ∃ idx, i = .wrl .b idx := by
  cases i with
  | wrl reg idx =>
    cases reg with
    | b => exact .inr ⟨idx, rfl⟩
    | a | p | st => exact .inl rfl
  | rdl | add | addx | sub | muls4 | muls8 | mulk | red256 => simp [legalEffect]

/-- `ADD` has its destination in `A`, and `RDL` has none. -/
theorem legalEffect_P_of_add_or_rdl {i : Instr} (h : (∃ n, i = .add n) ∨ ∃ reg idx, i = .rdl reg idx) (s : State) :
    (legalEffect i s).P = s.P := by
  obtain ⟨n, rfl⟩ | ⟨reg, idx, rfl⟩ := h
  · rfl
  · rfl

/-- Settles O21: a legal command changes what its effect's frame leaves open, and an illegal one no data register. -/
theorem operandsPersist : Obligations.OperandsPersist := by
  intro i s t h
  obtain ⟨-, rfl⟩ | ⟨-, rfl⟩ := exec_cases h
  · exact ⟨legalEffect_A i s, legalEffect_B i s, fun hi => legalEffect_P_of_add_or_rdl hi s⟩
  · exact ⟨.inl s.raiseIllegalCommand_A, .inl s.raiseIllegalCommand_B, fun _ => s.raiseIllegalCommand_P⟩

end Sys2Proof.Machine
